-- ==== Sys2Proof/Word.lean ====
section
/-! DEFINITION. The widths of the block: 32-bit words (00_scope.md R4, R6), bytes of the image (20_memory.md R42) and
5-bit register indexes (10_state.md R25, decision D18). -/

namespace Sys2Proof

/-- `u32`: every architectural value (R6). `+` on it is addition modulo 2^32 (R9, decision D4). -/
abbrev Word := BitVec 32

/-- One byte of the image (R42). -/
abbrev Byte := BitVec 8

/-- A register index: 5 bits, so that an index above 31 cannot be written down (R25, U2, D18). -/
abbrev RegIdx := BitVec 5

end Sys2Proof
end

