-- ==== Sys2Proof/Config.lean ====
section
/-! DEFINITION. The parameters that the spec asks a model to carry as configuration fields (00_scope.md R4,
92_eei_decisions.md). The values of this hardware are `Machine.params`. RESET_X and FETCH are open (R4): they are
arguments of `Machine.State.launch` and `Machine.stepWith`. -/

namespace Sys2Proof

/-- One field per parameter of R4 that the spec decides or leaves to the implementer. -/
structure Config where
  /-- OPC_LUI, bits 6:0 of a LUI word (R4, R70). -/
  opcLui : BitVec 7
  /-- OPC_AUIPC (R4, R70; decision D2). -/
  opcAuipc : BitVec 7
  /-- OPC_JAL (R4, R70; decision D2). -/
  opcJal : BitVec 7
  /-- OPC_JALR (R4, R70; decision D2, conflict C2). -/
  opcJalr : BitVec 7
  /-- The funct3 value that JALR needs (R4, R69). -/
  funct3Jalr : BitVec 3
  /-- U_SHIFT: left shift of the U-type field before LUI writes it or AUIPC adds it (R4, R92; decision D1). -/
  uShift : Nat
  /-- JALR_CLEAR_BIT0 (R4, R103; decision D7). -/
  jalrClearBit0 : Bool
  /-- IALIGN_STEP: how far the sequencer advances pc after an instruction that does not jump, in bytes (R4). -/
  instrBytes : Word
  /-- RESET_PC (R4, R37; decision D5). -/
  resetPc : Word
  /-- IMAGE_BASE (R4, R47; decision D6). -/
  imageBase : Word
  /-- REGNAME (R4, R122; decision D8). -/
  regNames : Vector String 32
  /-- UNRECOGNIZED_TEXT (R4, R127; decision D11). -/
  unrecognizedText : String
  deriving DecidableEq, Repr

end Sys2Proof
end

