-- ==== Sys2Proof/Machine/Params.lean ====
section
/-! DEFINITION. The configuration of this hardware: the value column of 00_scope.md R4. -/

namespace Sys2Proof.Machine

/-- REGNAME (43_formatter.md R122): entries 0, 2 and 15 are the source's, the rest is decision D8 (PRESUMED, log
entry 11). -/
def regNameTable : Vector String 32 :=
  #v["zero", "ra", "sp", "gp", "tp", "t0", "t1", "t2", "s0", "s1", "a0", "a1", "a2", "a3", "a4", "a5",
     "a6", "a7", "s2", "s3", "s4", "s5", "s6", "s7", "s8", "s9", "s10", "s11", "t3", "t4", "t5", "t6"]

/-- The values of R4: LUI's opcode is the source's; the other opcodes are decision D2 (PRESUMED, log entry 10);
U_SHIFT = 0 (D1) and JALR_CLEAR_BIT0 = false (D7) (log entry 10); RESET_PC = 0 (D5, DESIGN CHOICE, log entry 3);
IMAGE_BASE = RESET_PC (D6, log entry 4); the text parameters are D8 and D11 (log entry 11). -/
def params : Config where
  opcLui := 0b0110111#7
  opcAuipc := 0b0010111#7
  opcJal := 0b1101111#7
  opcJalr := 0b1100111#7
  funct3Jalr := 0b000#3
  uShift := 0
  jalrClearBit0 := false
  instrBytes := 4#32
  resetPc := 0x00000000#32
  imageBase := 0x00000000#32
  regNames := regNameTable
  unrecognizedText := "unknown"

end Sys2Proof.Machine
end

