-- ==== Sys2Proof/Syntax.lean ====
section
/-! DEFINITION. The Op record of 00_scope.md R13: one constructor per row of spec/opcode_table.json. -/

namespace Sys2Proof

/-- A decoded instruction (R13, R74): operand fields are `u32`, register fields 5 bits. An immediate is stored as
the Op holds it: raw and zero-extended for LUI and AUIPC (R65), sign-extended for JAL (R66) and JALR (R67). -/
inductive Instr where
  /-- LUI, 40_upper_immediate.md R90. -/
  | lui (rd : RegIdx) (imm : Word)
  /-- AUIPC, 40_upper_immediate.md R91. -/
  | auipc (rd : RegIdx) (imm : Word)
  /-- JAL, 41_jumps.md R100. -/
  | jal (rd : RegIdx) (imm : Word)
  /-- JALR, 41_jumps.md R101. -/
  | jalr (rd rs1 : RegIdx) (imm : Word)
  /-- Every other word, which the variant does not keep: 42_unrecognized.md R110. -/
  | unrecognized
  deriving DecidableEq, Repr

end Sys2Proof
end

