-- ==== Sys2Proof/WellFormed.lean ====
section
/-! DEFINITION. Which Ops the Decoder can return: the ranges of the operand fields (30_encoding.md R65, R66, R67,
R74). Execution and text are defined for every Op, well-formed or not (log entry 13). -/

namespace Sys2Proof

/-- A raw 20-bit field, zero in bits 31:20 (R65, R74). -/
def uImmOk (imm : Word) : Bool := decide (imm.toNat < 2 ^ 20)

/-- A sign-extended 21-bit value whose bit 0 is zero (R66, R74). -/
def jImmOk (imm : Word) : Bool := decide (-1048576 ≤ imm.toInt ∧ imm.toInt ≤ 1048574) && !imm.getLsbD 0

/-- A sign-extended 12-bit value (R67, R74). -/
def iImmOk (imm : Word) : Bool := decide (-2048 ≤ imm.toInt ∧ imm.toInt ≤ 2047)

/-- The operand ranges of R74, per variant. -/
def Instr.wf : Instr → Bool
  | .lui _ imm => uImmOk imm
  | .auipc _ imm => uImmOk imm
  | .jal _ imm => jImmOk imm
  | .jalr _ _ imm => iImmOk imm
  | .unrecognized => true

end Sys2Proof
end

