-- ==== Sys2Proof/Decode.lean ====
section
/-! DEFINITION. The bit-field utilities, the input boundary (bytes to words), the Decoder and an encoder:
30_encoding.md R60 to R74, 20_memory.md R42 and R43. -/

namespace Sys2Proof

open Sys2Proof.Machine (params)

/-! ### Bit-field utilities -/

/-- `extractField(word, lsb, width) = floor(word / 2^lsb) mod 2^width` (R62). The constraint is an argument, so a
call outside it cannot be written (R62, R143, D18). -/
def extractField (word : Word) (lsb width : Nat) (_ok : 1 ≤ width ∧ lsb + width ≤ 32 := by decide) : Word :=
  (word >>> lsb).extractLsb' 0 width |>.setWidth 32

/-- `signExtend(width, value)` (R63): bits at `width` and above are dropped, bit `width - 1` is copied upwards. -/
def signExtend (width : Nat) (value : Word) (_ok : 1 ≤ width ∧ width ≤ 32 := by decide) : Word :=
  (value.setWidth width).signExtend 32

/-- A field of 5 bits as a register index (R61, R74). -/
def regField (word : Word) (lsb : Nat) (ok : 1 ≤ 5 ∧ lsb + 5 ≤ 32 := by decide) : RegIdx :=
  (extractField word lsb 5 ok).setWidth 5

/-! ### The input boundary (R42, R43) -/

/-- Four bytes in file order as a little-endian word (R43). -/
def wordOfBytes (b0 b1 b2 b3 : Byte) : Word := (b3 ++ b2 ++ b1 ++ b0 : BitVec (8 + 8 + 8 + 8))

/-- Byte `k` (0 to 3) of a word in file order (R43). -/
def byteOfWord (w : Word) (k : Nat) : Byte := w.extractLsb' (8 * k) 8

/-- The four bytes of a word in file order (R43). -/
def bytesOfWord (w : Word) : List Byte := [byteOfWord w 0, byteOfWord w 1, byteOfWord w 2, byteOfWord w 3]

/-- The words of an image: word `i` is bytes `4i..4i+3`; 1 to 3 trailing bytes are dropped (R42). -/
def wordsOf : List Byte → List Word
  | b0 :: b1 :: b2 :: b3 :: rest => wordOfBytes b0 b1 b2 b3 :: wordsOf rest
  | _ => []

/-! ### Immediates -/

/-- U-type: the raw 20-bit field (R65). -/
def uImmediate (w : Word) : Word := extractField w 12 20

/-- J-type: `sext_21({w[31], w[19:12], w[20], w[30:21], 0b0})` (R66). -/
def jImmediate (w : Word) : Word :=
  signExtend 21
    (extractField w 31 1 <<< 20 ||| extractField w 12 8 <<< 12 ||| extractField w 20 1 <<< 11
      ||| extractField w 21 10 <<< 1)

/-- I-type: `sext_12(w[31:20])` (R67). -/
def iImmediate (w : Word) : Word := signExtend 12 (extractField w 20 12)

/-! ### The Decoder -/

/-- Bits 6:0 (R61). -/
def opcodeField (w : Word) : BitVec 7 := (extractField w 0 7).setWidth 7

/-- Bits 14:12 (R61). -/
def funct3Field (w : Word) : BitVec 3 := (extractField w 12 3).setWidth 3

/-- The algorithm of R69 with the opcode values of a configuration: total and pure (R68), tests in the order of R69,
the fallback last (R71). -/
def decodeWith (c : Config) (w : Word) : Instr :=
  if opcodeField w = c.opcLui then .lui (regField w 7) (uImmediate w)
  else if opcodeField w = c.opcAuipc then .auipc (regField w 7) (uImmediate w)
  else if opcodeField w = c.opcJal then .jal (regField w 7) (jImmediate w)
  else if opcodeField w = c.opcJalr ∧ funct3Field w = c.funct3Jalr then
    .jalr (regField w 7) (regField w 15) (iImmediate w)
  else .unrecognized

/-- `decode(word) -> Op` (R68, R69, R70). -/
def decode (w : Word) : Instr := decodeWith params w

/-- Why a byte sequence holds no instruction. -/
inductive DecodeError where
  /-- Raised by `decodeBytes` where fewer than four bytes are left: they complete no word (R42). Safe. -/
  | truncated (left : Nat)
  deriving DecidableEq, Repr

/-- The Decoder on a byte sequence: the next word in file order, and the rest (R42, R43, R60). -/
def decodeBytes : List Byte → Except DecodeError (Instr × List Byte)
  | b0 :: b1 :: b2 :: b3 :: rest => .ok (decode (wordOfBytes b0 b1 b2 b3), rest)
  | bs => .error (.truncated bs.length)

/-- The instruction read from a word numbered as spec/opcode_table.json numbers it; bits above `nbits` are 0. -/
def decodeTableWord (nbits w : Nat) : Option Instr :=
  match decodeBytes (bytesOfWord (BitVec.ofNat 32 (w % 2 ^ nbits))) with
  | .ok (i, _) => some i
  | .error _ => none

/-! ### The encoder, from the format tables of R64 -/

/-- U-type: imm20, rd, opcode (R64). -/
def encodeU (opc : BitVec 7) (rd : RegIdx) (imm : Word) : Word :=
  (imm.setWidth 20 ++ rd ++ opc : BitVec (20 + 5 + 7))

/-- J-type: imm[20], imm[10:1], imm[11], imm[19:12], rd, opcode (R64). -/
def encodeJ (opc : BitVec 7) (rd : RegIdx) (imm : Word) : Word :=
  (imm.extractLsb' 20 1 ++ imm.extractLsb' 1 10 ++ imm.extractLsb' 11 1 ++ imm.extractLsb' 12 8 ++ rd ++ opc :
    BitVec (1 + 10 + 1 + 8 + 5 + 7))

/-- I-type: imm[11:0], rs1, funct3, rd, opcode (R64). -/
def encodeI (opc : BitVec 7) (funct3 : BitVec 3) (rd rs1 : RegIdx) (imm : Word) : Word :=
  (imm.setWidth 12 ++ rs1 ++ funct3 ++ rd ++ opc : BitVec (12 + 5 + 3 + 5 + 7))

/-- The word that stands for the fallback variant, which keeps no word (R110): the source's own example `0xFFFFFFFF`
(R72). DESIGN CHOICE, log entry 9. -/
def unrecognizedWord : Word := 0xFFFFFFFF#32

/-- The word of an Op, with the opcode values of a configuration (R64, R70). -/
def encodeWith (c : Config) : Instr → Word
  | .lui rd imm => encodeU c.opcLui rd imm
  | .auipc rd imm => encodeU c.opcAuipc rd imm
  | .jal rd imm => encodeJ c.opcJal rd imm
  | .jalr rd rs1 imm => encodeI c.opcJalr c.funct3Jalr rd rs1 imm
  | .unrecognized => unrecognizedWord

/-- The word of an Op (R64, R70). -/
def encode (i : Instr) : Word := encodeWith params i

/-! ### The opcode map as mask and match -/

/-- The mask column of R70 and spec/opcode_table.json. -/
def rowMask : Instr → Word
  | .lui _ _ => 0x0000007F#32
  | .auipc _ _ => 0x0000007F#32
  | .jal _ _ => 0x0000007F#32
  | .jalr _ _ _ => 0x0000707F#32
  | .unrecognized => 0x00000000#32

/-- The match column of R70 and spec/opcode_table.json. -/
def rowMatch : Instr → Word
  | .lui _ _ => 0x00000037#32
  | .auipc _ _ => 0x00000017#32
  | .jal _ _ => 0x0000006F#32
  | .jalr _ _ _ => 0x00000067#32
  | .unrecognized => 0x00000000#32

end Sys2Proof
end

