-- ==== Sys2Proof/Machine/State.lean ====
section
/-! DEFINITION. The state of the machine: the Core state of 10_state.md R20 (pc, npc, 32 registers) and the
environment's image behind FETCH (20_memory.md R42, R47), as plain data. -/

namespace Sys2Proof.Machine

/-- The bytes of the environment's image by address, strictly rising (`Memory.wf`). The block itself has no memory
(R40); an address that is not listed holds no byte. -/
abbrev Memory := List Host.Cell

/-- The Core state (R20), and the image the environment supplies words from (R47; log entry 4). -/
structure State where
  /-- programCounter: the address of the instruction currently executing (R28). -/
  pc : Word
  /-- nextProgramCounter, the staging register (R29). -/
  npc : Word
  /-- The register file (R21). Cell 0 is never written and never read: `readReg` and `writeReg` are the only access
  (R22, R23, R24). -/
  x : Vector Word 32
  /-- IMAGE_BASE: the address of word 0 of the image (R47). The environment's, fixed for a run (R50). -/
  imageBase : Word
  /-- The image: bytes in file order from IMAGE_BASE (R42, R47). The environment's, fixed for a run (R50). -/
  image : Memory
  deriving DecidableEq, Repr

/-- Why the machine stops. The block has no fault of its own (R140). -/
inductive Fault where
  /-- Raised by `step` where FETCH(pc) gives no word: the block takes no step and the run is over (R47, R170, U6).
  The spec's stuck state under a name, not an exception of the block (log entry 5). Safe. -/
  | runOver
  deriving DecidableEq, Repr

/-- Why an instruction has no meaning here. -/
inductive Refusal where
  /-- Raised by an arm of `exec` for an instruction that has no meaning yet; no arm does so now. Safe. -/
  | notModelled (mnemonic : String)
  deriving DecidableEq, Repr

/-- The Core at its creation, which is its reset (R160, R37): x[0] = 0, pc = RESET_PC. The spec leaves x[1] to x[31]
and npc open; the zeros here are DESIGN CHOICE (log entries 1 and 2), and `State.launch` takes them as arguments.
No image is loaded (log entry 7). -/
def State.reset : State where
  pc := params.resetPc
  npc := 0x00000000#32
  x := Vector.replicate 32 0x00000000#32
  imageBase := params.imageBase
  image := []

end Sys2Proof.Machine
end

