-- ==== Sys2Proof/Machine/Ops.lean ====
section
/-! DEFINITION. The named operations over the register file, pc, npc and the image. Taking an exception and returning
from one are not among them: the block has neither (60_exceptions.md R140, R146). -/

namespace Sys2Proof.Machine

/-! ### The register file (R21 to R25) -/

/-- `read(index)`: index 0 reads 0 unconditionally; a read never fails (R22). -/
def State.readReg (s : State) (i : RegIdx) : Word := if i = 0 then 0 else s.x[i.toNat]'i.isLt

/-- `write(index, value)`: a silent no-op for index 0 (R23). -/
def State.writeReg (s : State) (i : RegIdx) (v : Word) : State :=
  if i = 0 then s else { s with x := s.x.set i.toNat v i.isLt }

/-! ### pc and npc (R28, R29, R38) -/

/-- `pc <- t`. Only the sequencer does so (R10, R30). -/
def State.setPc (s : State) (t : Word) : State := { s with pc := t }

/-- `npc <- t` (R10). -/
def State.setNpc (s : State) (t : Word) : State := { s with npc := t }

/-! ### The image (R42, R43, R47) -/

/-- The byte at an address of the image, if one stands there. -/
def Memory.read : Memory → Nat → Option Byte
  | [], _ => none
  | (b, v) :: m, a => if a = b then some v else Memory.read m a

/-- One byte placed at an address, in address order. -/
def Memory.write : Memory → Nat → Byte → Memory
  | [], a, v => [(a, v)]
  | (b, u) :: m, a, v =>
    if a < b then (a, v) :: (b, u) :: m
    else if a = b then (a, v) :: m
    else (b, u) :: Memory.write m a v

/-- The canonical form: addresses strictly rising. An unlisted address holds no byte, so every entry differs from
what an unlisted address reads as. -/
def Memory.wf : Memory → Bool
  | [] => true
  | [_] => true
  | c :: d :: m => decide (c.1 < d.1) && Memory.wf (d :: m)

/-- A byte sequence laid out from an address, in file order (R42). -/
def Memory.ofBytes : Nat → List Byte → Memory
  | _, [] => []
  | a, b :: bs => (a, b) :: Memory.ofBytes (a + 1) bs

/-- The little-endian word at an address, if all four of its bytes stand there (R42, R43). -/
def Memory.loadWord (m : Memory) (a : Nat) : Option Word :=
  match Memory.read m a, Memory.read m (a + 1), Memory.read m (a + 2), Memory.read m (a + 3) with
  | some b0, some b1, some b2, some b3 => some (wordOfBytes b0 b1 b2 b3)
  | _, _, _, _ => none

/-- A word placed at an address as the image holds it, least-significant byte first (R43). -/
def Memory.storeWord (m : Memory) (a : Nat) (w : Word) : Memory :=
  Memory.write (Memory.write (Memory.write (Memory.write m a (byteOfWord w 0)) (a + 1) (byteOfWord w 1))
    (a + 2) (byteOfWord w 2)) (a + 3) (byteOfWord w 3)

/-! ### FETCH (R47) -/

/-- The addresses at which the default platform can hold a word: at or above the base and a multiple of 4 from it
(R47). -/
def onImageGrid (base a : Word) : Bool := decide (base ≤ a) && decide ((a.toNat - base.toNat) % 4 = 0)

/-- FETCH of the default platform over the image in the state (R47): the word at `a` where the image holds one on its
grid, nothing otherwise. Offsets into the image do not wrap (log entry 6). -/
def State.fetch (s : State) (a : Word) : Option Word :=
  if onImageGrid s.imageBase a then Memory.loadWord s.image a.toNat else none

/-- The formula of R47 itself, over the words of an image: `word[(a - base) / 4]` inside the image and on its grid. -/
def defaultFetch (base : Word) (ws : List Word) (a : Word) : Option Word :=
  if base.toNat ≤ a.toNat ∧ a.toNat < base.toNat + 4 * ws.length ∧ (a.toNat - base.toNat) % 4 = 0 then
    ws[(a.toNat - base.toNat) / 4]?
  else none

/-- The environment loads an image: bytes in file order from `base` (R42, R47). -/
def State.load (s : State) (base : Word) (bytes : List Byte) : State :=
  { s with imageBase := base, image := Memory.ofBytes base.toNat bytes }

/-- The environment places one word where FETCH(a) finds it. The base stays where `a` is already on its grid, and
becomes `a` otherwise (log entry 7). -/
def State.placeWord (s : State) (a : Word) (w : Word) : State :=
  { s with
    imageBase := if onImageGrid s.imageBase a then s.imageBase else a
    image := Memory.storeWord s.image a.toNat w }

/-! ### Launch (R37, R160, R161) -/

/-- A Core at its creation with every value the spec leaves open taken as an argument (R37, D5): any x[1] to x[31]
(`regs`; its cell 0 is replaced by the constant zero), any npc, and the image at IMAGE_BASE. -/
def State.launch (regs : Vector Word 32) (npc : Word) (bytes : List Byte) : State :=
  State.load { State.reset with npc := npc, x := regs.set 0 0x00000000#32 } params.imageBase bytes

end Sys2Proof.Machine
end

