-- ==== Sys2Proof/Machine/Flags.lean ====
section
/-! DEFINITION. Flags: none. The block has no status flag, condition code or predicate (10_state.md R20, R35), addition
sets none (00_scope.md R9), and every instruction's rule says 'Flags written: none' (R90, R91, R100, R101, R110). This
file is where a flag computation would stand; the spec gives none to write. -/
end

