-- ==== Sys2Proof/Machine/Operands.lean ====
section
/-! DEFINITION. The operand computations the instructions share: the U-type operand (40_upper_immediate.md R92) and the
two jump targets (41_jumps.md R100, R101, R103). Sums are modulo 2^32 (00_scope.md R9, decision D4, log entry 12). -/

namespace Sys2Proof.Machine

/-- `imm * 2^U_SHIFT mod 2^32` (R92); `imm` itself with U_SHIFT = 0 (decision D1). -/
def uOperand (c : Config) (imm : Word) : Word := imm <<< c.uShift

/-- JAL's target `pc + imm` (R100). -/
def jalTarget (pc imm : Word) : Word := pc + imm

/-- JALR's target `src1 + imm` (R101); bit 0 is cleared only where JALR_CLEAR_BIT0 says so (R103, decision D7). -/
def jalrTarget (c : Config) (src1 imm : Word) : Word :=
  if c.jalrClearBit0 then (src1 + imm) &&& 0xFFFFFFFE#32 else src1 + imm

end Sys2Proof.Machine
end

