-- ==== Sys2Proof/Machine/Jumps.lean ====
section
/-! DEFINITION. The jump instructions JAL and JALR: 41_jumps.md R100 to R105. -/

namespace Sys2Proof.Machine

/-- The two writes of a jump, in the order of R102: npc takes the target, then x[rd] the link value. -/
def jumpAndLink (rd : RegIdx) (target link : Word) (s : State) : Host.Outcome State Fault Refusal :=
  .next ((s.setNpc target).writeReg rd link)

/-- `execute(JAL{rd, imm})` (R100): npc is read before it is overwritten. No check of the target (R103). -/
def execJal (rd : RegIdx) (imm : Word) (s : State) : Host.Outcome State Fault Refusal :=
  let savedNextPc := s.npc
  jumpAndLink rd (jalTarget s.pc imm) savedNextPc s

/-- JALR under a configuration (R101, R103): npc and x[rs1] are read before either write (R102). -/
def execJalrWith (c : Config) (rd rs1 : RegIdx) (imm : Word) (s : State) : Host.Outcome State Fault Refusal :=
  let savedNextPc := s.npc
  let src1 := s.readReg rs1
  jumpAndLink rd (jalrTarget c src1 imm) savedNextPc s

/-- `execute(JALR{rd, rs1, imm})` (R101), bit 0 of the target kept (R103, decision D7). -/
def execJalr (rd rs1 : RegIdx) (imm : Word) (s : State) : Host.Outcome State Fault Refusal :=
  execJalrWith params rd rs1 imm s

end Sys2Proof.Machine
end

