-- ==== Sys2Proof/Machine/Unrecognized.lean ====
section
/-! DEFINITION. The fallback variant: 42_unrecognized.md R110 to R113. -/

namespace Sys2Proof.Machine

/-- `execute(Unrecognized{})`: no state change; not an error and not a trap (R110, R113). -/
def execUnrecognized (s : State) : Host.Outcome State Fault Refusal := .next s

end Sys2Proof.Machine
end

