-- ==== Sys2Proof/Machine/UpperImmediate.lean ====
section
/-! DEFINITION. The upper-immediate instructions LUI and AUIPC: 40_upper_immediate.md R90, R91, R92. -/

namespace Sys2Proof.Machine

/-- LUI under a configuration: `x[rd] <- imm * 2^U_SHIFT` (R90, R92). -/
def execLuiWith (c : Config) (rd : RegIdx) (imm : Word) (s : State) : Host.Outcome State Fault Refusal :=
  .next (s.writeReg rd (uOperand c imm))

/-- AUIPC under a configuration: `x[rd] <- pc + imm * 2^U_SHIFT`, modulo 2^32 (R91, R92). -/
def execAuipcWith (c : Config) (rd : RegIdx) (imm : Word) (s : State) : Host.Outcome State Fault Refusal :=
  .next (s.writeReg rd (s.pc + uOperand c imm))

/-- `execute(LUI{rd, imm})` (R90), with U_SHIFT = 0 (decision D1). -/
def execLui (rd : RegIdx) (imm : Word) (s : State) : Host.Outcome State Fault Refusal :=
  execLuiWith params rd imm s

/-- `execute(AUIPC{rd, imm})` (R91), with U_SHIFT = 0 (decision D1). -/
def execAuipc (rd : RegIdx) (imm : Word) (s : State) : Host.Outcome State Fault Refusal :=
  execAuipcWith params rd imm s

end Sys2Proof.Machine
end

