-- ==== Sys2Proof/Machine/Sequencer.lean ====
section
/-! DEFINITION. The sequencer around an execute step: 10_state.md R30 (decision D3, log entry 8), 70_reset_and_hazards.md
R163, and the choice of the word by FETCH (20_memory.md R47, R170). -/

namespace Sys2Proof.Machine

/-- Before execute: `npc <- pc + 4` (R30). -/
def State.stage (s : State) : State := s.setNpc (s.pc + params.instrBytes)

/-- After execute: `pc <- npc` (R30). -/
def State.commit (s : State) : State := s.setPc s.npc

/-- `step(s, w)` of R30 for a supplied word. -/
def stepWord (w : Word) (s : State) : Host.Outcome State Fault Refusal :=
  match exec (decode w) s.stage with
  | .next t => .next t.commit
  | .fault r => .fault r
  | .refused r => .refused r

/-- A step under any FETCH (R47): with no word there is no step and the run is over (R170). -/
def stepWith (fetch : Word → Option Word) (s : State) : Host.Outcome State Fault Refusal :=
  match fetch s.pc with
  | some w => stepWord w s
  | none => .fault .runOver

end Sys2Proof.Machine
end

