-- ==== Sys2Proof/Machine/Step.lean ====
section
/-! DEFINITION. The step of the machine: the default platform's FETCH over the image in the state (20_memory.md R47). -/

namespace Sys2Proof.Machine

/-- One step in execute mode (R30, R47). -/
def step (s : State) : Host.Outcome State Fault Refusal := stepWith s.fetch s

/-- `s` with the instruction whose bits are `w` (bits above `nbits` zero) placed at pc, where `step` fetches it
(log entry 7). -/
def State.withFetchWord (s : State) (nbits w : Nat) : State :=
  s.placeWord s.pc (BitVec.ofNat 32 (w % 2 ^ nbits))

end Sys2Proof.Machine
end

