-- ==== Sys2Proof/Machine/Formatter.lean ====
section
/-! DEFINITION. The Formatter and the output line: 43_formatter.md R120 to R131. Text is built as a list of characters
and made a string at the end. The strings rest on decisions D8 to D12 (log entry 11) and have no effect on execution. -/

namespace Sys2Proof.Machine

/-- Text as characters. -/
abbrev Text := List Char

/-- REGNAME[i] (R122). -/
def regText (c : Config) (i : RegIdx) : Text := (c.regNames[i.toNat]'i.isLt).toList

/-- Decimal digits, no leading zeros (R128). -/
def decimalText (n : Nat) : Text := Nat.toDigits 10 n

/-- The raw field of LUI and AUIPC, never negative (R128). -/
def unsignedText (v : Word) : Text := decimalText v.toNat

/-- The signed value (R6) of a JAL or JALR immediate, with a leading `-` when negative (R128). -/
def signedText (v : Word) : Text :=
  if v.toInt < 0 then '-' :: decimalText v.toInt.natAbs else decimalText v.toInt.natAbs

/-- Mnemonic, one space, operands joined by commas with no space (R121). -/
def instrText (mnemonic : Text) (operands : List Text) : Text := mnemonic ++ ' ' :: List.intercalate [','] operands

/-- The text of an Op under a configuration (R120, R123 to R127): total, and a function of the Op alone. -/
def formatText (c : Config) : Instr → Text
  | .lui rd imm => instrText "lui".toList [regText c rd, unsignedText imm]
  | .auipc rd imm => instrText "auipc".toList [regText c rd, unsignedText imm]
  | .jal rd imm =>
    if rd = 0 then instrText "j".toList [signedText imm] else instrText "jal".toList [regText c rd, signedText imm]
  | .jalr rd rs1 imm =>
    if rd = 0 then instrText "jr".toList [regText c rs1, signedText imm]
    else instrText "jalr".toList [regText c rd, regText c rs1, signedText imm]
  | .unrecognized => c.unrecognizedText.toList

/-- `format(op)` (R120). -/
def format (i : Instr) : String := String.ofList (formatText params i)

/-- Hex digit `k` of a word, digit 0 the least significant; lower case (R130). -/
def hexDigit (w : Word) (k : Nat) : Char := Nat.digitChar (w.toNat / 16 ^ k % 16)

/-- Exactly eight hex digits, most significant first, no `0x` (R130, decision D12). -/
def hex8 (w : Word) : Text := [7, 6, 5, 4, 3, 2, 1, 0].map (hexDigit w)

/-- `line(w) = hex8(w) + " " + format(decode(w)) + "\n"` (R130). -/
def lineText (w : Word) : Text := hex8 w ++ ' ' :: formatText params (decode w) ++ ['\n']

/-- The output line of a word (R130). -/
def line (w : Word) : String := String.ofList (lineText w)

/-- Stream mode (R131): the lines of an image's words in file order. Decode and format only (decision D16, log
entry 16). -/
def streamLines (bytes : List Byte) : List String := (wordsOf bytes).map line

end Sys2Proof.Machine
end

