-- ==== Sys2Proof/Safety.lean ====
section
/-! DEFINITION. What the statements are made of: the invariant of the state, which register an Op writes and reads, and
what a safe run is. -/

namespace Sys2Proof

/-- The five variants of an Op, without their operands (00_scope.md R13, R14). -/
inductive Variant where
  | lui
  | auipc
  | jal
  | jalr
  | unrecognized
  deriving DecidableEq, Repr

/-- The variant of an Op (R14). -/
def Instr.variant : Instr → Variant
  | .lui _ _ => .lui
  | .auipc _ _ => .auipc
  | .jal _ _ => .jal
  | .jalr _ _ _ => .jalr
  | .unrecognized => .unrecognized

/-- The register an Op writes, if any (10_state.md R27). -/
def Instr.dest : Instr → Option RegIdx
  | .lui rd _ => some rd
  | .auipc rd _ => some rd
  | .jal rd _ => some rd
  | .jalr rd _ _ => some rd
  | .unrecognized => none

/-- The register an Op reads, if any (R27). -/
def Instr.source : Instr → Option RegIdx
  | .lui _ _ => none
  | .auipc _ _ => none
  | .jal _ _ => none
  | .jalr _ rs1 _ => some rs1
  | .unrecognized => none

/-- The Ops that write npc (R29). -/
def Instr.isJump : Instr → Bool
  | .lui _ _ => false
  | .auipc _ _ => false
  | .jal _ _ => true
  | .jalr _ _ _ => true
  | .unrecognized => false

namespace Machine

/-- `registers[0] == 0` (R24), and the image in canonical form. -/
abbrev Inv (s : State) : Prop := s.x[0] = 0x00000000#32 ∧ Memory.wf s.image = true

/-- A state from which a step is taken: FETCH(pc) is a word (R47). This is all a step needs (R112). -/
abbrev CanStep (s : State) : Prop := (s.fetch s.pc).isSome

/-- The state after a history of register writes, first write first (R22, R23). -/
def State.afterWrites (s : State) : List (RegIdx × Word) → State
  | [] => s
  | (i, v) :: h => State.afterWrites (s.writeReg i v) h

/-- The value a history stored last at an index, if it stored any (R22). -/
def lastWrite (j : RegIdx) : List (RegIdx × Word) → Option Word
  | [] => none
  | (i, v) :: h => match lastWrite j h with
    | some u => some u
    | none => if i = j then some v else none

/-- The registers of `t` are those of `s`, but that `rd` holds `v`; register 0 takes no write (R23). -/
def RegsAre (s t : State) (rd : RegIdx) (v : Word) : Prop :=
  ∀ r, t.readReg r = if r = rd ∧ r ≠ 0 then v else s.readReg r

/-- Every byte of the image, and the place of the image, are as before. -/
def SameImage (s t : State) : Prop :=
  t.imageBase = s.imageBase ∧ ∀ a, Memory.read t.image a = Memory.read s.image a

/-- The value of a hexadecimal digit `0` to `9`, `a` to `f`. -/
def digitValue (c : Char) : Nat := if c.toNat < 58 then c.toNat - 48 else c.toNat - 87

/-- The number a text of digits spells, most significant digit first. -/
def numeral (base : Nat) (t : Text) : Nat := t.foldl (fun n c => base * n + digitValue c) 0

end Machine

end Sys2Proof
end

