-- ==== Sys2Proof/Certificates/Slice0/Obligations.lean ====
section
/-! DEFINITION. The statements for the provers, from the numbered rules of spec/. -/

open Sys2Proof Sys2Proof.Machine

/-! ### Bit-field utilities and the register file -/

/-- R62. -/
def Obligations.ExtractFieldIsFloorDivMod : Prop :=
  ∀ (w : Word) (lsb width : Nat) (ok : 1 ≤ width ∧ lsb + width ≤ 32),
    (extractField w lsb width ok).toNat = w.toNat / 2 ^ lsb % 2 ^ width ∧ extractField w 0 32 = w

/-- R63, its pseudocode as numbers. -/
def Obligations.SignExtendCopiesSignBit : Prop :=
  ∀ (value : Word) (width : Nat) (ok : 1 ≤ width ∧ width ≤ 32),
    (signExtend width value ok).toNat =
      if value.toNat % 2 ^ width / 2 ^ (width - 1) = 0 then value.toNat % 2 ^ width
      else value.toNat % 2 ^ width + (2 ^ 32 - 2 ^ width)

/-- R22 and R23: after any history of writes, a read gives the value most recently stored at the index, or what stood
there before; index 0 reads 0; no other state changes. -/
def Obligations.ReadGivesMostRecentWrite : Prop :=
  ∀ (s : State) (h : List (RegIdx × Word)) (j : RegIdx),
    (s.afterWrites h).readReg j = (if j = 0 then 0 else (lastWrite j h).getD (s.readReg j))
      ∧ (s.afterWrites h).pc = s.pc ∧ (s.afterWrites h).npc = s.npc ∧ SameImage s (s.afterWrites h)

/-- R24, for the read and for the storage cell the model keeps. -/
def Obligations.RegisterZeroHeldAtZero : Prop :=
  ∀ (s : State) (h : List (RegIdx × Word)) (v : Word),
    (s.afterWrites h).readReg 0 = 0 ∧ ((s.afterWrites h).writeReg 0 v).readReg 0 = 0
      ∧ (s.x[0] = 0 → (s.afterWrites h).x[0] = 0)

/-- R24's last sentence, for a step: what the cell of index 0 holds is not observable. -/
def Obligations.CellZeroIsNotObservable : Prop :=
  ∀ (s : State) (v : Word), CanStep s →
    ∃ t, step s = .next t ∧ step { s with x := s.x.set 0 v } = .next { t with x := t.x.set 0 v }

/-! ### The input boundary -/

/-- R42 and R43. -/
def Obligations.ImageBytesFormLittleEndianWords : Prop :=
  ∀ bs : List Byte, (wordsOf bs).length = bs.length / 4 ∧
    ∀ (i : Nat) (b0 b1 b2 b3 : Byte), bs[4 * i]? = some b0 → bs[4 * i + 1]? = some b1 → bs[4 * i + 2]? = some b2 →
      bs[4 * i + 3]? = some b3 →
      ∃ w, (wordsOf bs)[i]? = some w ∧
        w.toNat = b0.toNat + b1.toNat * 2 ^ 8 + b2.toNat * 2 ^ 16 + b3.toNat * 2 ^ 24

/-- R42, R43 and R60: the Decoder on a byte sequence takes four bytes; fewer complete no word. -/
def Obligations.DecodeBytesTakesFourBytes : Prop :=
  (∀ (b0 b1 b2 b3 : Byte) (rest : List Byte), ∃ w : Word,
    w.toNat = b0.toNat + b1.toNat * 2 ^ 8 + b2.toNat * 2 ^ 16 + b3.toNat * 2 ^ 24 ∧
      decodeBytes (b0 :: b1 :: b2 :: b3 :: rest) = .ok (decode w, rest)) ∧
  ∀ bs : List Byte, bs.length < 4 → decodeBytes bs = .error (.truncated bs.length)

/-! ### Decoding -/

/-- R65, with the opcodes named by their parameters. -/
def Obligations.UTypeImmediateIsRawField : Prop :=
  ∀ w : Word,
    (w.extractLsb' 0 7 = params.opcLui →
      decode w = .lui (w.extractLsb' 7 5) ((w.extractLsb' 12 20).setWidth 32)) ∧
    (w.extractLsb' 0 7 = params.opcAuipc →
      decode w = .auipc (w.extractLsb' 7 5) ((w.extractLsb' 12 20).setWidth 32)) ∧
    ((w.extractLsb' 12 20).setWidth 32).toNat ≤ 0xFFFFF

/-- R66, with the opcode named by its parameter: the weights of the fragments, bit 0, and the range, every even value
of which some word has. -/
def Obligations.JTypeImmediateIsReassembled : Prop :=
  (∀ w : Word, w.extractLsb' 0 7 = params.opcJal →
    ∃ raw21 : BitVec 21,
      raw21.toNat = (w.extractLsb' 31 1).toNat * 2 ^ 20 + (w.extractLsb' 12 8).toNat * 2 ^ 12
        + (w.extractLsb' 20 1).toNat * 2 ^ 11 + (w.extractLsb' 21 10).toNat * 2 ^ 1 ∧
      decode w = .jal (w.extractLsb' 7 5) (raw21.signExtend 32) ∧
      (raw21.signExtend 32).getLsbD 0 = false ∧
      -1048576 ≤ (raw21.signExtend 32).toInt ∧ (raw21.signExtend 32).toInt ≤ 1048574) ∧
  ∀ k : Int, -1048576 ≤ k → k ≤ 1048574 → k % 2 = 0 →
    ∃ (w : Word) (rd : RegIdx) (imm : Word), decode w = .jal rd imm ∧ imm.toInt = k

/-- R67, with the opcode and funct3 named by their parameters; every value of the range, odd ones included. -/
def Obligations.ITypeImmediateIsSignExtended : Prop :=
  (∀ w : Word, w.extractLsb' 0 7 = params.opcJalr → w.extractLsb' 12 3 = params.funct3Jalr →
    decode w = .jalr (w.extractLsb' 7 5) (w.extractLsb' 15 5) ((w.extractLsb' 20 12).signExtend 32) ∧
      -2048 ≤ ((w.extractLsb' 20 12).signExtend 32).toInt ∧ ((w.extractLsb' 20 12).signExtend 32).toInt ≤ 2047) ∧
  ∀ k : Int, -2048 ≤ k → k ≤ 2047 →
    ∃ (w : Word) (rd rs1 : RegIdx) (imm : Word), decode w = .jalr rd rs1 imm ∧ imm.toInt = k

/-- The opcode map of R70 as masks and matches. The opcode values of AUIPC, JAL and JALR are the spec's decision D2
(log entry 10). -/
def Obligations.DecodeFollowsMaskAndMatch : Prop :=
  ∀ w : Word,
    (w &&& 0x0000007F#32 = 0x00000037#32 ↔ ∃ rd imm, decode w = .lui rd imm) ∧
    (w &&& 0x0000007F#32 = 0x00000017#32 ↔ ∃ rd imm, decode w = .auipc rd imm) ∧
    (w &&& 0x0000007F#32 = 0x0000006F#32 ↔ ∃ rd imm, decode w = .jal rd imm) ∧
    (w &&& 0x0000707F#32 = 0x00000067#32 ↔ ∃ rd rs1 imm, decode w = .jalr rd rs1 imm) ∧
    (decode w = .unrecognized ↔
      w &&& 0x0000007F#32 ≠ 0x00000037#32 ∧ w &&& 0x0000007F#32 ≠ 0x00000017#32 ∧
      w &&& 0x0000007F#32 ≠ 0x0000006F#32 ∧ w &&& 0x0000707F#32 ≠ 0x00000067#32)

/-- R71: a word that matches the pattern of a row decodes to that row's variant, so no word matches the patterns of two
variants. The opcode values are the spec's decision D2 (log entry 10). -/
def Obligations.OpcodeRowsAreDisjoint : Prop :=
  ∀ (w : Word) (i : Instr), i ≠ .unrecognized → w &&& rowMask i = rowMatch i →
    (decode w).variant = i.variant ∧
    ∀ j : Instr, j ≠ .unrecognized → w &&& rowMask j = rowMatch j → i.variant = j.variant

/-- The column 'Number of words' of R70 for the four patterns (opcode values: decision D2, log entry 10). -/
def Obligations.RowsHaveTheStatedNumberOfWords : Prop :=
  Nat.card { w : Word // ∃ rd imm, decode w = .lui rd imm } = 2 ^ 25 ∧
  Nat.card { w : Word // ∃ rd imm, decode w = .auipc rd imm } = 2 ^ 25 ∧
  Nat.card { w : Word // ∃ rd imm, decode w = .jal rd imm } = 2 ^ 25 ∧
  Nat.card { w : Word // ∃ rd rs1 imm, decode w = .jalr rd rs1 imm } = 2 ^ 22 ∧
  Nat.card { w : Word // decode w = .unrecognized } = 4190109696

/-- R72 and R111: words outside the four patterns: every opcode but the four (those of other extensions and the custom
ones included), and each class that R72 lists. The major opcodes of the other families are the spec's general knowledge
(G7), those of the four rows are named by their parameters (decision D2, log entry 10). -/
def Obligations.OtherWordsAreUnrecognized : Prop :=
  ∀ w : Word,
    (w.extractLsb' 0 2 ≠ 0b11#2 → decode w = .unrecognized) ∧
    (w = 0xFFFFFFFF#32 → decode w = .unrecognized) ∧
    (w.extractLsb' 0 7 = 0b1100111#7 → w.extractLsb' 12 3 ≠ 0b000#3 → decode w = .unrecognized) ∧
    (w.extractLsb' 0 7 ∈ [0b1100011#7, 0b0000011#7, 0b0100011#7, 0b0010011#7, 0b0110011#7, 0b0001111#7, 0b1110011#7,
        0b0101111#7] → decode w = .unrecognized) ∧
    (w.extractLsb' 0 7 ∉ [params.opcLui, params.opcAuipc, params.opcJal, params.opcJalr] → decode w = .unrecognized)

/-- The ranges of R74 and R25 hold of every Op the Decoder returns. -/
def Obligations.DecodedOpsAreWellFormed : Prop := ∀ w : Word, (decode w).wf = true

/-- Decode and encode agree on every well-formed Op (formats R64; the fallback's word is the model's choice, log
entry 9). -/
def Obligations.DecodeAfterEncodeIsIdentity : Prop := ∀ i : Instr, i.wf = true → decode (encode i) = i

/-- R64: no recognised word has a bit the block ignores, so its Op gives the word back. -/
def Obligations.EncodeAfterDecodeGivesWordBack : Prop :=
  ∀ w : Word, decode w ≠ .unrecognized → encode (decode w) = w

/-- The round trip under any opcode values that are pairwise different (R71), the parameters of R4. -/
def Obligations.RoundTripForAnyDistinctOpcodes : Prop :=
  ∀ (c : Config) (i : Instr), [c.opcLui, c.opcAuipc, c.opcJal, c.opcJalr].Nodup → i.wf = true → i ≠ .unrecognized →
    decodeWith c (encodeWith c i) = i

/-- Words written out from the spec's encodings and its own examples (R72, R74, R90, R91, R100, R101, R123). -/
def Obligations.SpecWordsDecodeAsStated : Prop :=
  decode 0x123452B7#32 = .lui 5 0x12345#32 ∧ decode 0x000002B7#32 = .lui 5 0#32 ∧
  decode 0x000007B7#32 = .lui 15 0#32 ∧ decode 0x00001517#32 = .auipc 10 1#32 ∧
  decode 0x008000EF#32 = .jal 1 8#32 ∧ decode 0x00408167#32 = .jalr 2 1 4#32 ∧
  decode 0xFFFFFFFF#32 = .unrecognized ∧ decode 0x00000000#32 = .unrecognized

/-! ### Executing one Op -/

/-- R90. The next pc is that of the sequencing of R30, as the rule says (the spec's decision D3, log entry 8). -/
def Obligations.LuiWritesRawImmediate : Prop :=
  (∀ (rd : RegIdx) (imm : Word) (s : State), ∃ t, exec (.lui rd imm) s = .next t ∧ RegsAre s t rd imm ∧
    t.pc = s.pc ∧ t.npc = s.npc ∧ SameImage s t ∧ (rd = 0 → t = s)) ∧
  (∀ (rd : RegIdx) (imm : Word), imm.toNat ≤ 0xFFFFF →
    (encode (.lui rd imm)).toNat = imm.toNat * 2 ^ 12 + rd.toNat * 2 ^ 7 + 0x37) ∧
  (∀ (w : Word) (s : State) (rd : RegIdx) (imm : Word), decode w = .lui rd imm →
    ∃ t, stepWord w s = .next t ∧ t.pc = s.pc + 4) ∧
  decode 0x123452B7#32 = .lui 5 0x12345#32

/-- R91. Its opcode is decision D2, the wrap D4, the unshifted immediate D1 (log entries 10 and 12). -/
def Obligations.AuipcAddsRawImmediateToPc : Prop :=
  (∀ (rd : RegIdx) (imm : Word) (s : State), ∃ t, exec (.auipc rd imm) s = .next t ∧ RegsAre s t rd (s.pc + imm) ∧
    t.pc = s.pc ∧ t.npc = s.npc ∧ SameImage s t ∧ (rd = 0 → t = s)) ∧
  (∀ (rd : RegIdx) (imm : Word), imm.toNat ≤ 0xFFFFF →
    (encode (.auipc rd imm)).toNat = imm.toNat * 2 ^ 12 + rd.toNat * 2 ^ 7 + 0x17) ∧
  (∀ (w : Word) (s : State) (rd : RegIdx) (imm : Word), decode w = .auipc rd imm →
    ∃ t, stepWord w s = .next t ∧ t.pc = s.pc + 4)

/-- R100, for any npc at entry. Its opcode is decision D2, the wrap D4 (log entries 10 and 12). -/
def Obligations.JalLinksEntryNpcAndJumps : Prop :=
  ∀ (rd : RegIdx) (imm : Word) (s : State), ∃ t, exec (.jal rd imm) s = .next t ∧ t.npc = s.pc + imm ∧
    RegsAre s t rd s.npc ∧ t.pc = s.pc ∧ SameImage s t

/-- R101, for any npc at entry and any target; the base is read before the link is written, also when `rd = rs1`. The
wrap is decision D4 (log entry 12), bit 0 of the target is kept (R103, D7, log entry 10); the link of a step is that of
the sequencing of R30, as the rule says (decision D3, log entry 8). -/
def Obligations.JalrLinksEntryNpcAndJumps : Prop :=
  (∀ (rd rs1 : RegIdx) (imm : Word) (s : State), ∃ t, exec (.jalr rd rs1 imm) s = .next t ∧
    t.npc = s.readReg rs1 + imm ∧ RegsAre s t rd s.npc ∧ t.pc = s.pc ∧ SameImage s t) ∧
  (∀ w : Word, w.extractLsb' 0 7 = 0b1100111#7 →
    (w.extractLsb' 12 3 ≠ 0b000#3 → decode w = .unrecognized) ∧
    (w.extractLsb' 12 3 = 0b000#3 →
      decode w = .jalr (w.extractLsb' 7 5) (w.extractLsb' 15 5) ((w.extractLsb' 20 12).signExtend 32))) ∧
  (∀ (w : Word) (s : State) (rd rs1 : RegIdx) (imm : Word), decode w = .jalr rd rs1 imm →
    ∃ t, stepWord w s = .next t ∧ RegsAre s t rd (s.pc + 4)) ∧
  decode 0x00408167#32 = .jalr 2 1 4#32

/-- R110. The patterns are named by their parameters; the next pc is that of the sequencing of R30, as the rule says (the
spec's decision D3, log entry 8), and the placeholder is named by its parameter (D11, log entry 11). -/
def Obligations.UnrecognizedChangesNothing : Prop :=
  (∀ s : State, exec .unrecognized s = .next s) ∧
  (∀ w : Word, decode w = .unrecognized ↔
    w.extractLsb' 0 7 ≠ params.opcLui ∧ w.extractLsb' 0 7 ≠ params.opcAuipc ∧ w.extractLsb' 0 7 ≠ params.opcJal ∧
      ¬ (w.extractLsb' 0 7 = params.opcJalr ∧ w.extractLsb' 12 3 = params.funct3Jalr)) ∧
  (∀ (w : Word) (s : State), decode w = .unrecognized →
    ∃ t, stepWord w s = .next t ∧ t.pc = s.pc + 4 ∧ t.x = s.x ∧ SameImage s t) ∧
  decode 0xFFFFFFFF#32 = .unrecognized ∧ format .unrecognized = params.unrecognizedText

/-- R102, for both jumps: each read gives the value before the instruction, whatever the instruction writes. -/
def Obligations.JumpsReadBeforeTheyWrite : Prop :=
  ∀ (rd rs1 : RegIdx) (imm : Word) (s : State), rd ≠ 0 →
    (∃ t, exec (.jal rd imm) s = .next t ∧ t.readReg rd = s.npc ∧ t.npc = jalTarget s.pc imm) ∧
    (∃ t, exec (.jalr rd rs1 imm) s = .next t ∧ t.readReg rd = s.npc ∧
      t.npc = jalrTarget params (s.readReg rs1) imm) ∧
    (∃ t, exec (.jalr rd rd imm) s = .next t ∧ t.readReg rd = s.npc ∧
      t.npc = jalrTarget params (s.readReg rd) imm)

/-- R103: any address at all is a JALR target, odd ones too, and a decoded JAL keeps the parity of pc (decision D7). -/
def Obligations.JumpTargetsAreNotChecked : Prop :=
  (∀ (target : Word) (rd rs1 : RegIdx) (imm : Word) (s : State), s.readReg rs1 = target - imm →
    ∃ t, exec (.jalr rd rs1 imm) s = .next t ∧ t.npc = target) ∧
  (∀ (w : Word) (rd : RegIdx) (imm : Word) (s : State), decode w = .jal rd imm →
    ∃ t, exec (.jal rd imm) s = .next t ∧ t.npc.getLsbD 0 = s.pc.getLsbD 0)

/-- R92: the U-type operand under any U_SHIFT; this hardware has 0 (decision D1, log entry 10). -/
def Obligations.UTypeOperandUnderAnyShift : Prop :=
  params.uShift = 0 ∧
  ∀ (c : Config) (rd : RegIdx) (imm : Word) (s : State), ∃ v : Word,
    v.toNat = imm.toNat * 2 ^ c.uShift % 2 ^ 32 ∧
    (∃ t, execLuiWith c rd imm s = .next t ∧ RegsAre s t rd v ∧ t.pc = s.pc ∧ t.npc = s.npc ∧ SameImage s t) ∧
    (∃ t, execAuipcWith c rd imm s = .next t ∧ RegsAre s t rd (s.pc + v) ∧ t.pc = s.pc ∧ t.npc = s.npc ∧
      SameImage s t)

/-- JALR under either value of JALR_CLEAR_BIT0 (R4, R103); this hardware has false (decision D7, log entry 10). -/
def Obligations.JalrTargetUnderClearBit0 : Prop :=
  params.jalrClearBit0 = false ∧
  ∀ (c : Config) (rd rs1 : RegIdx) (imm : Word) (s : State),
    ∃ t, execJalrWith c rd rs1 imm s = .next t ∧ RegsAre s t rd s.npc ∧
      ∀ k, t.npc.getLsbD k = if c.jalrClearBit0 = true ∧ k = 0 then false else (s.readReg rs1 + imm).getLsbD k

/-- Sums are modulo 2^32 (R9, R31; decision D4, log entry 12). -/
def Obligations.SumsWrapModulo : Prop :=
  ∀ (s : State) (imm : Word) (r : RegIdx),
    (jalTarget s.pc imm).toNat = (s.pc.toNat + imm.toNat) % 2 ^ 32 ∧
    (jalrTarget params (s.readReg r) imm).toNat = ((s.readReg r).toNat + imm.toNat) % 2 ^ 32 ∧
    s.stage.npc.toNat = (s.pc.toNat + 4) % 2 ^ 32

/-! ### Rules of the whole machine -/

/-- R112: decode, execute and format are defined for every word and every state. -/
def Obligations.PipelineIsTotal : Prop :=
  ∀ (w : Word) (s : State), ∃ (i : Instr) (t : State) (text : String),
    decode w = i ∧ exec i s = .next t ∧ format i = text ∧ text ≠ ""

/-- R10, R28, R29 and R40: what no Op writes. -/
def Obligations.ExecuteNeverWritesPcOrImage : Prop :=
  ∀ (i : Instr) (s : State), ∃ t, exec i s = .next t ∧ t.pc = s.pc ∧ SameImage s t ∧
    (i.isJump = false → t.npc = s.npc)

/-- R27: at most the destination register changes, and register 0 never. -/
def Obligations.ExecuteWritesOnlyItsDestination : Prop :=
  ∀ (i : Instr) (s : State), ∃ t, exec i s = .next t ∧
    (∀ r, i.dest ≠ some r → t.readReg r = s.readReg r) ∧ t.readReg 0 = 0 ∧
    (i.dest = some 0 → ∀ r, t.readReg r = s.readReg r)

/-- R27, R29 and R28 as non-interference: what an Op writes depends on pc, npc and its source register alone. -/
def Obligations.ExecuteReadsOnlyItsSources : Prop :=
  ∀ (i : Instr) (s s' : State), s.pc = s'.pc → s.npc = s'.npc →
    (∀ r, i.source = some r → s.readReg r = s'.readReg r) →
    ∃ t t', exec i s = .next t ∧ exec i s' = .next t' ∧ t.pc = t'.pc ∧ t.npc = t'.npc ∧
      ∀ r, i.dest = some r → t.readReg r = t'.readReg r

/-! ### Steps -/

/-- A step runs the Op that the bytes at pc decode to, between the sequencer's two actions (R30, R47; decisions D3 and
D6, log entries 4 and 8). -/
def Obligations.StepRunsDecodedOp : Prop :=
  ∀ (s : State) (b0 b1 b2 b3 : Byte) (i : Instr), s.imageBase ≤ s.pc → (s.pc.toNat - s.imageBase.toNat) % 4 = 0 →
    Memory.read s.image s.pc.toNat = some b0 → Memory.read s.image (s.pc.toNat + 1) = some b1 →
    Memory.read s.image (s.pc.toNat + 2) = some b2 → Memory.read s.image (s.pc.toNat + 3) = some b3 →
    decodeBytes [b0, b1, b2, b3] = .ok (i, []) →
    step s = match exec i (s.setNpc (s.pc + 4)) with
      | .next t => .next (t.setPc t.npc)
      | .fault r => .fault r
      | .refused r => .refused r

/-- A step stops exactly where FETCH has no word for pc, and completes everywhere else (R47, R140, R170; decision D6;
the stop's name is the model's, log entry 5). -/
def Obligations.StepStopsExactlyWhereNoWord : Prop :=
  ∀ s : State, (s.fetch s.pc = none → step s = .fault .runOver) ∧ (CanStep s → ∃ t, step s = .next t)

/-- The same under any FETCH at all (R47). -/
def Obligations.StepUnderAnyFetch : Prop :=
  ∀ (fetch : Word → Option Word) (s : State),
    (fetch s.pc = none → stepWith fetch s = .fault .runOver) ∧
    (∀ w, fetch s.pc = some w → ∃ t, stepWith fetch s = .next t ∧ stepWord w s = .next t ∧ t.pc = t.npc)

/-- FETCH over a loaded image is the formula of R47 over the image's words (decision D6, log entry 4). That the
offsets of the formula do not wrap at 2^32 is DEDUCED (log entry 6). -/
def Obligations.FetchIsTheDefaultPlatform : Prop :=
  ∀ (s : State) (base : Word) (bytes : List Byte) (a : Word),
    (s.load base bytes).fetch a = defaultFetch base (wordsOf bytes) a

/-- The model's load of one word (log entry 7): it stands at pc; pc, npc, the registers and the image's other bytes are
as before; the base stays where pc is on its grid, with FETCH at every other address, and becomes pc otherwise. -/
def Obligations.PlacedWordIsFetched : Prop :=
  ∀ (s : State) (w : Nat), (s.withFetchWord 32 w).fetch s.pc = some (BitVec.ofNat 32 w) ∧
    (s.withFetchWord 32 w).pc = s.pc ∧ (s.withFetchWord 32 w).npc = s.npc ∧ (s.withFetchWord 32 w).x = s.x ∧
    (∀ a, a < s.pc.toNat ∨ s.pc.toNat + 4 ≤ a →
      Memory.read (s.withFetchWord 32 w).image a = Memory.read s.image a) ∧
    (if s.imageBase ≤ s.pc ∧ (s.pc.toNat - s.imageBase.toNat) % 4 = 0 then
      (s.withFetchWord 32 w).imageBase = s.imageBase ∧
        ∀ a, a ≠ s.pc → (s.withFetchWord 32 w).fetch a = s.fetch a
    else (s.withFetchWord 32 w).imageBase = s.pc)

/-- A step of an Op that does not jump: pc and npc become pc + 4, only the destination register may change (R30, R90,
R91, R110; decision D3, log entry 8). -/
def Obligations.StepOfOtherOpsAdvancesByFour : Prop :=
  ∀ (s : State) (w : Word), s.fetch s.pc = some w → (decode w).isJump = false →
    ∃ t, step s = .next t ∧ t.pc = s.pc + 4 ∧ t.npc = s.pc + 4 ∧ SameImage s t ∧
      ∀ r, (decode w).dest ≠ some r → t.readReg r = s.readReg r

/-- A step of JAL: the next Op is the one at the target, the link is pc + 4 (R30, R100, R105; decision D3, log
entry 8). -/
def Obligations.StepOfJalGoesToTarget : Prop :=
  ∀ (s : State) (w : Word) (rd : RegIdx) (imm : Word), s.fetch s.pc = some w → decode w = .jal rd imm →
    ∃ t, step s = .next t ∧ t.pc = s.pc + imm ∧ t.npc = s.pc + imm ∧ RegsAre s t rd (s.pc + 4) ∧ SameImage s t

/-- A step of JALR, as for JAL (R30, R101, R105; decision D3, log entry 8). -/
def Obligations.StepOfJalrGoesToTarget : Prop :=
  ∀ (s : State) (w : Word) (rd rs1 : RegIdx) (imm : Word), s.fetch s.pc = some w → decode w = .jalr rd rs1 imm →
    ∃ t, step s = .next t ∧ t.pc = s.readReg rs1 + imm ∧ t.npc = s.readReg rs1 + imm ∧
      RegsAre s t rd (s.pc + 4) ∧ SameImage s t

/-- The value of npc before a step never matters (R30, R37; decision D3, log entries 2 and 8). -/
def Obligations.EntryNpcNeverMatters : Prop := ∀ (s : State) (v : Word), step (s.setNpc v) = step s

/-! ### Reset, invariants, runs -/

/-- Reset (R37; RESET_PC is decision D5, log entry 3; the empty image is the model's, log entry 7), and what a step
does before an image is loaded. -/
def Obligations.ResetLeaves : Prop :=
  State.reset.pc = 0x00000000#32 ∧ State.reset.readReg 0 = 0 ∧ State.reset.x[0] = 0 ∧ State.reset.image = [] ∧
    step State.reset = .fault .runOver

/-- Launch (R37, R160, R161; decisions D5 and D6): for every choice of what the spec leaves open, the first Op executed
is that of word 0 of the image. -/
def Obligations.LaunchRunsWordZeroFirst : Prop :=
  ∀ (regs : Vector Word 32) (npc : Word) (b0 b1 b2 b3 : Byte) (rest : List Byte),
    (State.launch regs npc (b0 :: b1 :: b2 :: b3 :: rest)).pc = params.resetPc ∧
    (∀ r : RegIdx, r ≠ 0 → (State.launch regs npc (b0 :: b1 :: b2 :: b3 :: rest)).readReg r = regs[r.toNat]'r.isLt) ∧
    step (State.launch regs npc (b0 :: b1 :: b2 :: b3 :: rest)) =
      stepWord (wordOfBytes b0 b1 b2 b3) (State.launch regs npc (b0 :: b1 :: b2 :: b3 :: rest))

/-- The invariant holds at reset and at every launch. -/
def Obligations.LaunchMeetsTheInvariant : Prop :=
  Inv State.reset ∧ ∀ (regs : Vector Word 32) (npc : Word) (bytes : List Byte), Inv (State.launch regs npc bytes)

/-- Every step keeps `registers[0] == 0` (R24) and the canonical form of the image. -/
def Obligations.StepKeepsTheInvariant : Prop := ∀ s t : State, Inv s → step s = .next t → Inv t

/-- FETCH is fixed for a run (R50, U9): no number of steps changes what the environment supplies at any address. -/
def Obligations.RunsNeverChangeFetch : Prop :=
  ∀ (k : Nat) (s t : State), Sys2Proof.core.run k s = .next t → SameImage s t ∧ ∀ a, t.fetch a = s.fetch a

/-- A run stops for one reason alone (R140, R170): FETCH has no word for the pc it has reached. -/
def Obligations.RunsStopOnlyWhereNoWord : Prop :=
  ∀ (k : Nat) (s : State),
    (∃ t, Sys2Proof.core.run k s = .next t) ∨
    (∃ (j : Nat) (t : State), j < k ∧ Sys2Proof.core.run j s = .next t ∧ t.fetch t.pc = none ∧
      Sys2Proof.core.run k s = .fault .runOver)

/-! ### The Formatter and the output line -/

/-- The texts of R123 to R127 (decisions D8 to D11, log entry 11). -/
def Obligations.TextsAreAsListed : Prop :=
  ∀ (rd rs1 : RegIdx) (imm : Word),
    formatText params (.lui rd imm) = "lui ".toList ++ regText params rd ++ [','] ++ unsignedText imm ∧
    formatText params (.auipc rd imm) = "auipc ".toList ++ regText params rd ++ [','] ++ unsignedText imm ∧
    formatText params (.jal rd imm) = (if rd = 0 then "j ".toList ++ signedText imm
      else "jal ".toList ++ regText params rd ++ [','] ++ signedText imm) ∧
    formatText params (.jalr rd rs1 imm) = (if rd = 0 then "jr ".toList ++ regText params rs1 ++ [','] ++ signedText imm
      else "jalr ".toList ++ regText params rd ++ [','] ++ regText params rs1 ++ [','] ++ signedText imm) ∧
    formatText params .unrecognized = "unknown".toList

/-- REGNAME: the whole table of R122, index by index, and no name twice. Entries 0, 2 and 15 are the source's, the other
names are decision D8 (log entry 11). -/
def Obligations.RegisterNamesAreDistinct : Prop :=
  (List.range 32).map (fun k => String.ofList (regText params (BitVec.ofNat 5 k))) =
    ["zero", "ra", "sp", "gp", "tp", "t0", "t1", "t2"] ++ ["s0", "s1", "a0", "a1", "a2", "a3", "a4", "a5"] ++
    ["a6", "a7", "s2", "s3", "s4", "s5", "s6", "s7"] ++ ["s8", "s9", "s10", "s11", "t3", "t4", "t5", "t6"] ∧
  ∀ r q : RegIdx, regText params r = regText params q → r = q

/-- Immediates in decimal (R128; decision D10, log entry 11): digits only, no leading zero, the right value; the raw field
for LUI and AUIPC, never negative; the signed value for JAL and JALR, with a leading `-` when negative; and each text
ends in its immediate so printed. -/
def Obligations.ImmediatesPrintInDecimal : Prop :=
  (∀ n : Nat, numeral 10 (decimalText n) = n ∧ (∀ c ∈ decimalText n, c.isDigit = true) ∧
    (n ≠ 0 → (decimalText n).head? ≠ some '0') ∧ (n = 0 → decimalText n = ['0'])) ∧
  (∀ v : Word, unsignedText v = decimalText v.toNat ∧
    (v.toInt < 0 → signedText v = '-' :: decimalText (2 ^ 32 - v.toNat)) ∧
    (0 ≤ v.toInt → signedText v = decimalText v.toNat)) ∧
  ∀ (rd rs1 : RegIdx) (imm : Word), ∃ t1 t2 t3 t4 : Text,
    formatText params (.lui rd imm) = t1 ++ [','] ++ decimalText imm.toNat ∧
    formatText params (.auipc rd imm) = t2 ++ [','] ++ decimalText imm.toNat ∧
    formatText params (.jal rd imm) = t3 ++ [if rd = 0 then ' ' else ','] ++ signedText imm ∧
    formatText params (.jalr rd rs1 imm) = t4 ++ [','] ++ signedText imm

/-- Two different Ops never print the same text (R123 to R127 with the names of R122; decisions D8 to D11, log
entry 11). -/
def Obligations.TextDeterminesTheOp : Prop := ∀ i j : Instr, format i = format j → i = j

/-- The output line (R130, decision D12): eight hex digits that spell the word, one space, the text, a line feed. -/
def Obligations.LineSpellsTheWord : Prop :=
  ∀ w : Word, line w = String.ofList (hex8 w ++ [' '] ++ formatText params (decode w) ++ ['\n']) ∧
    (hex8 w).length = 8 ∧ numeral 16 (hex8 w) = w.toNat ∧ (∀ c ∈ hex8 w, c ∈ "0123456789abcdef".toList)

/-- R114: every unrecognised word has the placeholder as its text, and its line is the word's eight hex digits before
one and the same rest, so that two such lines differ exactly where the words do (decisions D11 and D12, log entry 11). -/
def Obligations.UnrecognizedLinesDifferInTheWordOnly : Prop :=
  (∃ rest : Text, ∀ w : Word, decode w = .unrecognized →
    format (decode w) = params.unrecognizedText ∧ line w = String.ofList (hex8 w ++ rest)) ∧
  ∀ w w' : Word, decode w = .unrecognized → decode w' = .unrecognized → line w = line w' → w = w'

/-- Stream mode (R131, decision D16): one line per whole word of the image, in file order. -/
def Obligations.StreamPrintsOneLinePerWord : Prop :=
  ∀ bytes : List Byte, (streamLines bytes).length = bytes.length / 4 ∧
    ∀ (i : Nat) (b0 b1 b2 b3 : Byte), bytes[4 * i]? = some b0 → bytes[4 * i + 1]? = some b1 →
      bytes[4 * i + 2]? = some b2 → bytes[4 * i + 3]? = some b3 →
      (streamLines bytes)[i]? = some (line (wordOfBytes b0 b1 b2 b3))
end

