-- ==== Sys2Proof/Laws/Decode.lean ====
section
/-! SUPPORT. The Decoder's and the encoder's fields as slices of bits (30_encoding.md R61, R64). -/

namespace Sys2Proof

/-- `extractField` as a slice of bits, zero-extended. -/
theorem extractField_eq_slice (w : Word) (lsb width : Nat) (ok : 1 ≤ width ∧ lsb + width ≤ 32) :
    extractField w lsb width ok = (w.extractLsb' lsb width).setWidth 32 := by
  unfold extractField
  apply BitVec.eq_of_getLsbD_eq
  intro k hk
  simp only [BitVec.getLsbD_setWidth, BitVec.getLsbD_extractLsb', BitVec.getLsbD_ushiftRight, Nat.zero_add]

theorem opcodeField_eq_slice (w : Word) : opcodeField w = w.extractLsb' 0 7 := by
  unfold opcodeField
  rw [extractField_eq_slice]
  exact BitVec.setWidth_setWidth_of_le _ (by decide) |>.trans (BitVec.setWidth_eq _)

theorem funct3Field_eq_slice (w : Word) : funct3Field w = w.extractLsb' 12 3 := by
  unfold funct3Field
  rw [extractField_eq_slice]
  exact BitVec.setWidth_setWidth_of_le _ (by decide) |>.trans (BitVec.setWidth_eq _)

theorem regField_eq_slice (w : Word) (lsb : Nat) (ok : 1 ≤ 5 ∧ lsb + 5 ≤ 32) :
    regField w lsb ok = w.extractLsb' lsb 5 := by
  unfold regField
  rw [extractField_eq_slice]
  exact BitVec.setWidth_setWidth_of_le _ (by decide) |>.trans (BitVec.setWidth_eq _)

/-- The fields of a U-type word (R64). -/
theorem encodeU_fields (opc : BitVec 7) (rd : RegIdx) (imm : Word) :
    (encodeU opc rd imm).extractLsb' 0 7 = opc ∧ (encodeU opc rd imm).extractLsb' 7 5 = rd ∧
    (encodeU opc rd imm).extractLsb' 12 20 = imm.setWidth 20 := by
  unfold encodeU
  refine ⟨?_, ?_, ?_⟩ <;>
  · ext k hk
    simp only [BitVec.getElem_extractLsb', BitVec.getLsbD_append]
    interval_cases k <;> simp [BitVec.getLsbD_eq_getElem]

/-- The fields of a J-type word (R64). -/
theorem encodeJ_fields (opc : BitVec 7) (rd : RegIdx) (imm : Word) :
    (encodeJ opc rd imm).extractLsb' 0 7 = opc ∧ (encodeJ opc rd imm).extractLsb' 7 5 = rd ∧
    (encodeJ opc rd imm).extractLsb' 12 8 = imm.extractLsb' 12 8 ∧
    (encodeJ opc rd imm).extractLsb' 20 1 = imm.extractLsb' 11 1 ∧
    (encodeJ opc rd imm).extractLsb' 21 10 = imm.extractLsb' 1 10 ∧
    (encodeJ opc rd imm).extractLsb' 31 1 = imm.extractLsb' 20 1 := by
  unfold encodeJ
  refine ⟨?_, ?_, ?_, ?_, ?_, ?_⟩ <;>
  · ext k hk
    simp only [BitVec.getElem_extractLsb', BitVec.getLsbD_append]
    interval_cases k <;> simp [BitVec.getLsbD_eq_getElem]

/-- The fields of an I-type word (R64). -/
theorem encodeI_fields (opc : BitVec 7) (f : BitVec 3) (rd rs1 : RegIdx) (imm : Word) :
    (encodeI opc f rd rs1 imm).extractLsb' 0 7 = opc ∧ (encodeI opc f rd rs1 imm).extractLsb' 7 5 = rd ∧
    (encodeI opc f rd rs1 imm).extractLsb' 12 3 = f ∧ (encodeI opc f rd rs1 imm).extractLsb' 15 5 = rs1 ∧
    (encodeI opc f rd rs1 imm).extractLsb' 20 12 = imm.setWidth 12 := by
  unfold encodeI
  refine ⟨?_, ?_, ?_, ?_, ?_⟩ <;>
  · ext k hk
    simp only [BitVec.getElem_extractLsb', BitVec.getLsbD_append]
    interval_cases k <;> simp [BitVec.getLsbD_eq_getElem]

end Sys2Proof
end

