-- ==== Sys2Proof/Laws/State.lean ====
section
/-! SUPPORT. The small lemmas of the state updates: one per field per update, true by rfl. -/

namespace Sys2Proof.Machine

@[simp] theorem State.setPc_pc (s : State) (t : Word) : (s.setPc t).pc = t := rfl
@[simp] theorem State.setPc_npc (s : State) (t : Word) : (s.setPc t).npc = s.npc := rfl
@[simp] theorem State.setPc_x (s : State) (t : Word) : (s.setPc t).x = s.x := rfl
@[simp] theorem State.setPc_imageBase (s : State) (t : Word) : (s.setPc t).imageBase = s.imageBase := rfl
@[simp] theorem State.setPc_image (s : State) (t : Word) : (s.setPc t).image = s.image := rfl
@[simp] theorem State.setPc_readReg (s : State) (t : Word) (r : RegIdx) : (s.setPc t).readReg r = s.readReg r := rfl
@[simp] theorem State.setPc_fetch (s : State) (t : Word) : (s.setPc t).fetch = s.fetch := rfl

@[simp] theorem State.setNpc_pc (s : State) (t : Word) : (s.setNpc t).pc = s.pc := rfl
@[simp] theorem State.setNpc_npc (s : State) (t : Word) : (s.setNpc t).npc = t := rfl
@[simp] theorem State.setNpc_x (s : State) (t : Word) : (s.setNpc t).x = s.x := rfl
@[simp] theorem State.setNpc_imageBase (s : State) (t : Word) : (s.setNpc t).imageBase = s.imageBase := rfl
@[simp] theorem State.setNpc_image (s : State) (t : Word) : (s.setNpc t).image = s.image := rfl
@[simp] theorem State.setNpc_readReg (s : State) (t : Word) (r : RegIdx) : (s.setNpc t).readReg r = s.readReg r := rfl
@[simp] theorem State.setNpc_fetch (s : State) (t : Word) : (s.setNpc t).fetch = s.fetch := rfl

@[simp] theorem State.stage_pc (s : State) : s.stage.pc = s.pc := rfl
@[simp] theorem State.stage_npc (s : State) : s.stage.npc = s.pc + params.instrBytes := rfl
@[simp] theorem State.stage_x (s : State) : s.stage.x = s.x := rfl
@[simp] theorem State.stage_imageBase (s : State) : s.stage.imageBase = s.imageBase := rfl
@[simp] theorem State.stage_image (s : State) : s.stage.image = s.image := rfl
@[simp] theorem State.stage_readReg (s : State) (r : RegIdx) : s.stage.readReg r = s.readReg r := rfl

@[simp] theorem State.commit_pc (s : State) : s.commit.pc = s.npc := rfl
@[simp] theorem State.commit_npc (s : State) : s.commit.npc = s.npc := rfl
@[simp] theorem State.commit_x (s : State) : s.commit.x = s.x := rfl
@[simp] theorem State.commit_imageBase (s : State) : s.commit.imageBase = s.imageBase := rfl
@[simp] theorem State.commit_image (s : State) : s.commit.image = s.image := rfl
@[simp] theorem State.commit_readReg (s : State) (r : RegIdx) : s.commit.readReg r = s.readReg r := rfl

@[simp] theorem State.placeWord_pc (s : State) (a w : Word) : (s.placeWord a w).pc = s.pc := rfl
@[simp] theorem State.placeWord_npc (s : State) (a w : Word) : (s.placeWord a w).npc = s.npc := rfl
@[simp] theorem State.placeWord_x (s : State) (a w : Word) : (s.placeWord a w).x = s.x := rfl
@[simp] theorem State.placeWord_image (s : State) (a w : Word) :
    (s.placeWord a w).image = Memory.storeWord s.image a.toNat w := rfl

@[simp] theorem State.load_pc (s : State) (b : Word) (bs : List Byte) : (s.load b bs).pc = s.pc := rfl
@[simp] theorem State.load_npc (s : State) (b : Word) (bs : List Byte) : (s.load b bs).npc = s.npc := rfl
@[simp] theorem State.load_x (s : State) (b : Word) (bs : List Byte) : (s.load b bs).x = s.x := rfl
@[simp] theorem State.load_imageBase (s : State) (b : Word) (bs : List Byte) : (s.load b bs).imageBase = b := rfl
@[simp] theorem State.load_image (s : State) (b : Word) (bs : List Byte) :
    (s.load b bs).image = Memory.ofBytes b.toNat bs := rfl

/-- A register write touches the register file only. -/
@[simp] theorem State.writeReg_pc (s : State) (i : RegIdx) (v : Word) : (s.writeReg i v).pc = s.pc := by
  unfold State.writeReg; split <;> rfl
@[simp] theorem State.writeReg_npc (s : State) (i : RegIdx) (v : Word) : (s.writeReg i v).npc = s.npc := by
  unfold State.writeReg; split <;> rfl
@[simp] theorem State.writeReg_imageBase (s : State) (i : RegIdx) (v : Word) :
    (s.writeReg i v).imageBase = s.imageBase := by
  unfold State.writeReg; split <;> rfl
@[simp] theorem State.writeReg_image (s : State) (i : RegIdx) (v : Word) : (s.writeReg i v).image = s.image := by
  unfold State.writeReg; split <;> rfl

end Sys2Proof.Machine
end

