-- ==== Sys2Proof/Laws/Memory.lean ====
section
/-! SUPPORT. The image as a list of cells: read after write, and the canonical form is kept by every operation. -/

namespace Sys2Proof.Machine

/-- A read after a write of one byte. -/
theorem Memory.read_write (m : Memory) (a b : Nat) (v : Byte) :
    Memory.read (Memory.write m a v) b = if b = a then some v else Memory.read m b := by
  induction m with
  | nil => simp [Memory.write, Memory.read]
  | cons c m ih =>
    obtain ⟨k, u⟩ := c
    simp only [Memory.write]
    split
    · simp [Memory.read]
    · split
      · subst_vars
        by_cases hb : b = k <;> simp [Memory.read, hb]
      · by_cases hb : b = k
        · subst hb
          have : ¬ b = a := fun h => by simp_all
          simp [Memory.read, this]
        · simp [Memory.read, hb, ih]

/-- The head of a written list is the smaller of the two addresses. -/
theorem Memory.head_write_ge (m : Memory) (a : Nat) (v : Byte) (k : Nat) (hk : k < a)
    (hm : ∀ c ∈ m.head?, k < c.1) : ∀ c ∈ (Memory.write m a v).head?, k < c.1 := by
  cases m with
  | nil => simp [Memory.write, hk]
  | cons d m =>
    simp only [List.head?_cons, Option.mem_def, Option.some.injEq, forall_eq'] at hm
    simp only [Memory.write]
    split
    · simp [hk]
    · split <;> simp [hk, hm]

theorem Memory.wf_cons (c : Host.Cell) (m : Memory) :
    Memory.wf (c :: m) = true ↔ (∀ d ∈ m.head?, c.1 < d.1) ∧ Memory.wf m = true := by
  cases m with
  | nil => simp [Memory.wf]
  | cons d m => simp [Memory.wf]

/-- A write keeps the canonical form. -/
theorem Memory.wf_write (m : Memory) (a : Nat) (v : Byte) (h : Memory.wf m = true) :
    Memory.wf (Memory.write m a v) = true := by
  induction m with
  | nil => rfl
  | cons c m ih =>
    have hc := (Memory.wf_cons c m).1 h
    simp only [Memory.write]
    split
    · exact (Memory.wf_cons _ _).2 ⟨by simpa using ‹a < c.1›, h⟩
    · split
      · subst_vars
        exact (Memory.wf_cons _ _).2 ⟨hc.1, hc.2⟩
      · exact (Memory.wf_cons _ _).2 ⟨Memory.head_write_ge _ _ _ _ (by omega) hc.1, ih hc.2⟩

/-- Placing a word keeps the canonical form. -/
theorem Memory.wf_storeWord (m : Memory) (a : Nat) (w : Word) (h : Memory.wf m = true) :
    Memory.wf (Memory.storeWord m a w) = true :=
  Memory.wf_write _ _ _ (Memory.wf_write _ _ _ (Memory.wf_write _ _ _ (Memory.wf_write _ _ _ h)))

/-- A loaded image is in canonical form. -/
theorem Memory.wf_ofBytes (a : Nat) (bs : List Byte) : Memory.wf (Memory.ofBytes a bs) = true := by
  induction bs generalizing a with
  | nil => rfl
  | cons b bs ih =>
    refine (Memory.wf_cons _ _).2 ⟨?_, ih (a + 1)⟩
    cases bs <;> simp [Memory.ofBytes]

/-- A loaded image holds byte `a - base` at `a`, and nothing outside. -/
theorem Memory.read_ofBytes (base a : Nat) (bs : List Byte) :
    Memory.read (Memory.ofBytes base bs) a = if base ≤ a then bs[a - base]? else none := by
  induction bs generalizing base with
  | nil => simp [Memory.ofBytes, Memory.read]
  | cons b bs ih =>
    simp only [Memory.ofBytes, Memory.read]
    split
    · subst_vars; simp
    · rw [ih]
      by_cases h : base ≤ a
      · have h1 : base + 1 ≤ a := by omega
        have h2 : a - base = (a - (base + 1)) + 1 := by omega
        simp [h, h1, h2]
      · have h1 : ¬ base + 1 ≤ a := by omega
        simp [h, h1]

/-- Reset lists nothing, which is canonical. -/
theorem State.reset_image_wf : Memory.wf State.reset.image = true := rfl

theorem wordOfBytes_byteOfWord (w : Word) :
    wordOfBytes (byteOfWord w 0) (byteOfWord w 1) (byteOfWord w 2) (byteOfWord w 3) = w := by
  unfold wordOfBytes byteOfWord
  ext i hi
  simp only [BitVec.getElem_append, BitVec.getElem_extractLsb']
  split
  · simp [BitVec.getLsbD_eq_getElem, hi]
  · split
    · rw [show 8 * 1 + (i - 8) = i by omega, BitVec.getLsbD_eq_getElem hi]
    · split
      · rw [show 8 * 2 + (i - 8 - 8) = i by omega, BitVec.getLsbD_eq_getElem hi]
      · rw [show 8 * 3 + (i - 8 - 8 - 8) = i by omega, BitVec.getLsbD_eq_getElem hi]

/-- A placed word is the word read back. -/
theorem Memory.loadWord_storeWord (m : Memory) (a : Nat) (w : Word) :
    Memory.loadWord (Memory.storeWord m a w) a = some w := by
  simp [Memory.loadWord, Memory.storeWord, Memory.read_write, wordOfBytes_byteOfWord]

end Sys2Proof.Machine
end

