-- ==== Sys2Proof/Laws/PerInstr.lean ====
section
/-! SUPPORT. A fact about every Op as syntax, one lemma per constructor: its encoding matches its row of the opcode map
(30_encoding.md R70). -/

namespace Sys2Proof.Laws.EncodeMatchesRow

/-- The encoding of an Op, masked by its row's mask, is its row's match value (R70). -/
def Statement (i : Instr) : Prop := encode i &&& rowMask i = rowMatch i

/-- A U-type word keeps its opcode in bits 6:0. -/
theorem encodeU_opcode (opc : BitVec 7) (rd : RegIdx) (imm : Word) :
    encodeU opc rd imm &&& 0x0000007F#32 = opc.setWidth 32 := by
  unfold encodeU
  ext k hk
  simp only [BitVec.getElem_and, BitVec.getElem_append]
  interval_cases k <;> simp

/-- A J-type word keeps its opcode in bits 6:0. -/
theorem encodeJ_opcode (opc : BitVec 7) (rd : RegIdx) (imm : Word) :
    encodeJ opc rd imm &&& 0x0000007F#32 = opc.setWidth 32 := by
  unfold encodeJ
  ext k hk
  simp only [BitVec.getElem_and, BitVec.getElem_append]
  interval_cases k <;> simp

/-- An I-type word keeps its opcode in bits 6:0 and its funct3 in bits 14:12. -/
theorem encodeI_opcode_funct3 (opc : BitVec 7) (f : BitVec 3) (rd rs1 : RegIdx) (imm : Word) :
    encodeI opc f rd rs1 imm &&& 0x0000707F#32 = f.setWidth 32 <<< 12 ||| opc.setWidth 32 := by
  unfold encodeI
  ext k hk
  simp only [BitVec.getElem_and, BitVec.getElem_append]
  interval_cases k <;> simp

theorem lui (rd : RegIdx) (imm : Word) : Statement (.lui rd imm) := encodeU_opcode _ _ _

theorem auipc (rd : RegIdx) (imm : Word) : Statement (.auipc rd imm) := encodeU_opcode _ _ _

theorem jal (rd : RegIdx) (imm : Word) : Statement (.jal rd imm) := encodeJ_opcode _ _ _

theorem jalr (rd rs1 : RegIdx) (imm : Word) : Statement (.jalr rd rs1 imm) := encodeI_opcode_funct3 _ _ _ _ _

theorem unrecognized : Statement .unrecognized := rfl

end Sys2Proof.Laws.EncodeMatchesRow
end

