-- ==== Sys2Proof/Laws/Registers.lean ====
section
/-! SUPPORT. What a register read and a register write do: 10_state.md R22, R23, R24. -/

namespace Sys2Proof.Machine

theorem State.readReg_zero (s : State) : s.readReg 0 = 0 := rfl

theorem State.writeReg_zero (s : State) (v : Word) : s.writeReg 0 v = s := rfl

/-- A read after one write: the written value at a written index other than 0, the old value everywhere else. -/
theorem State.readReg_writeReg (s : State) (i j : RegIdx) (v : Word) :
    (s.writeReg i v).readReg j = if i = j ∧ j ≠ 0 then v else s.readReg j := by
  unfold State.writeReg State.readReg
  by_cases hi : i = 0 <;> by_cases hj : j = 0 <;> by_cases hij : i = j <;> simp_all [Vector.getElem_set]
  intro h
  exact absurd (BitVec.eq_of_toNat_eq h) hij

/-- Cell 0 is never written (R24). -/
theorem State.writeReg_cell_zero (s : State) (i : RegIdx) (v : Word) : (s.writeReg i v).x[0] = s.x[0] := by
  unfold State.writeReg
  split
  · rfl
  · rename_i h
    have h0 : i.toNat ≠ 0 := fun h0 => h (BitVec.eq_of_toNat_eq h0)
    exact Vector.getElem_set_ne i.isLt (by decide) h0

end Sys2Proof.Machine
end

