-- ==== Sys2Proof/Laws/Step.lean ====
section
/-! SUPPORT. Everything an execute step and a step can do, said once (10_state.md R27, R29, R30; 42_unrecognized.md
R112). -/

namespace Sys2Proof.Machine

/-- The one shape of an execute step: npc may be set, then at most one register is written. -/
theorem exec_shape (i : Instr) (s : State) :
    ∃ n rd v, exec i s = .next ((s.setNpc n).writeReg rd v) := by
  cases i with
  | lui rd imm => exact ⟨s.npc, rd, _, rfl⟩
  | auipc rd imm => exact ⟨s.npc, rd, _, rfl⟩
  | jal rd imm => exact ⟨_, rd, _, rfl⟩
  | jalr rd rs1 imm => exact ⟨_, rd, _, rfl⟩
  | unrecognized => exact ⟨s.npc, 0, 0, rfl⟩

/-- A step with a supplied word: stage, one execute step, commit. -/
theorem stepWord_shape (w : Word) (s : State) :
    ∃ n rd v, stepWord w s = .next ((s.stage.setNpc n).writeReg rd v).commit := by
  obtain ⟨n, rd, v, h⟩ := exec_shape (decode w) s.stage
  exact ⟨n, rd, v, by simp [stepWord, h]⟩

/-- `step` in terms of FETCH and `stepWord`. -/
theorem step_of_fetch (s : State) (w : Word) (h : s.fetch s.pc = some w) : step s = stepWord w s := by
  simp [step, stepWith, h]

theorem step_of_no_word (s : State) (h : s.fetch s.pc = none) : step s = .fault .runOver := by
  simp [step, stepWith, h]

/-- One more step of a run, where the first step goes on. -/
theorem run_succ_of_next {s t : State} (k : Nat) (h : step s = .next t) : core.run (k + 1) s = core.run k t := by
  have h' : core.step s = .next t := h
  simp only [Host.Core.run, h']

/-- A run ends at its first fault. -/
theorem run_succ_of_fault {s : State} (k : Nat) (r : Fault) (h : step s = .fault r) :
    core.run (k + 1) s = .fault r := by
  have h' : core.step s = .fault r := h
  simp only [Host.Core.run, h']

end Sys2Proof.Machine
end

