-- ==== Sys2Proof/Tests/Slice0.lean ====
section
/-! SUPPORT. Tests on fixed values, with expected results from 95_test_vectors.md and the worked examples of the rules,
and for every statement with hypotheses a witness that meets them, at the boundary values of its ranges. -/

namespace Sys2Proof.Tests

open Sys2Proof Sys2Proof.Machine

/-- One field of the next state, if there is one. -/
def after {α : Type} (o : Host.Outcome State Fault Refusal) (f : State → α) : Option α :=
  match o with
  | .next t => some (f t)
  | .fault _ => none
  | .refused _ => none

/-- The start state of 95_test_vectors.md 2.4 and 2.5, with one register given. -/
def start (r : RegIdx) (v : Word) : State := { State.reset with pc := 0x1000#32, npc := 0x1004#32 }.writeReg r v

/-- A state at a pc with a word placed there, and one register given (2.6). -/
def placed (pc : Word) (w : Nat) (r : RegIdx) (v : Word) : State :=
  ({ State.reset with pc := pc, npc := 0xDEADBEEF#32 }.writeReg r v).withFetchWord 32 w

/-! ### Well-formedness: an ill-formed term for each check, refused (R74) -/

theorem test_wf_refuses_lui_imm_of_21_bits : (Instr.lui 5 0x100000#32).wf = false := by decide
theorem test_wf_refuses_auipc_imm_of_21_bits : (Instr.auipc 5 0x100000#32).wf = false := by decide
theorem test_wf_refuses_odd_jal_imm : (Instr.jal 1 0x00000009#32).wf = false := by decide
theorem test_wf_refuses_jal_imm_above_range : (Instr.jal 1 0x00100000#32).wf = false := by decide
theorem test_wf_refuses_jal_imm_below_range : (Instr.jal 1 0xFFEFFFFE#32).wf = false := by decide
theorem test_wf_refuses_jalr_imm_above_range : (Instr.jalr 1 1 0x00000800#32).wf = false := by decide
theorem test_wf_refuses_jalr_imm_below_range : (Instr.jalr 1 1 0xFFFFF7FF#32).wf = false := by decide
theorem test_wf_accepts_boundaries :
    (Instr.lui 31 0xFFFFF#32).wf = true ∧ (Instr.auipc 31 0xFFFFF#32).wf = true ∧
    (Instr.jal 0 0x000FFFFE#32).wf = true ∧ (Instr.jal 0 0xFFF00000#32).wf = true ∧
    (Instr.jalr 0 0 0x000007FF#32).wf = true ∧ (Instr.jalr 0 0 0xFFFFF800#32).wf = true := by decide

/-! ### Utilities (95_test_vectors.md 2.1) -/

theorem test_extractField_vectors :
    extractField 0x123452B7#32 0 7 = 0x37#32 ∧ extractField 0x123452B7#32 7 5 = 0x05#32 ∧
    extractField 0x123452B7#32 12 20 = 0x12345#32 ∧ extractField 0xFFFFFFFF#32 12 3 = 0x7#32 ∧
    extractField 0x00408167#32 15 5 = 0x01#32 ∧ extractField 0x00408167#32 20 12 = 0x004#32 ∧
    extractField 0x80000000#32 31 1 = 0x1#32 ∧ extractField 0xDEADBEEF#32 0 32 = 0xDEADBEEF#32 := by decide

theorem test_signExtend_vectors :
    signExtend 12 0xFFF#32 = 0xFFFFFFFF#32 ∧ signExtend 12 0x001#32 = 0x00000001#32 ∧ signExtend 21 0#32 = 0#32 ∧
    signExtend 12 0x800#32 = 0xFFFFF800#32 ∧ signExtend 12 0x7FF#32 = 0x000007FF#32 ∧
    signExtend 21 0x100000#32 = 0xFFF00000#32 ∧ signExtend 21 0x0FFFFE#32 = 0x000FFFFE#32 ∧
    signExtend 1 1#32 = 0xFFFFFFFF#32 ∧ signExtend 32 0x80000000#32 = 0x80000000#32 := by decide

/-! ### Decoding: words written out bit by bit from R64 -/

/-- LUI: imm20, rd, opcode (R64; vector D-3, S4). -/
theorem test_decode_lui : decode (0b00010010001101000101_00101_0110111#32) = .lui 5 0x12345#32 := by decide
/-- AUIPC (R64; vector D-8). -/
theorem test_decode_auipc : decode (0b00000000000000000001_01010_0010111#32) = .auipc 10 1#32 := by decide
/-- JAL: imm[20], imm[10:1], imm[11], imm[19:12], rd, opcode (R64; vector D-12). -/
theorem test_decode_jal : decode (0b0_0000000100_0_00000000_00001_1101111#32) = .jal 1 8#32 := by decide
/-- JALR: imm[11:0], rs1, funct3, rd, opcode (R64; vector D-24). -/
theorem test_decode_jalr : decode (0b000000000100_00001_000_00010_1100111#32) = .jalr 2 1 4#32 := by decide
/-- Opcode 1100111 with funct3 001 (vector X-1). -/
theorem test_decode_unrecognized : decode (0b000000000100_00001_001_00010_1100111#32) = .unrecognized := by decide

/-- Every bit of the J immediate on its own (vectors D-15 to D-23). -/
theorem test_decode_jal_fragments :
    decode 0xFFDFF06F#32 = .jal 0 0xFFFFFFFC#32 ∧ decode 0x7FFFF0EF#32 = .jal 1 0x000FFFFE#32 ∧
    decode 0x800002EF#32 = .jal 5 0xFFF00000#32 ∧ decode 0x002000EF#32 = .jal 1 2#32 ∧
    decode 0x001000EF#32 = .jal 1 0x800#32 ∧ decode 0x000010EF#32 = .jal 1 0x1000#32 ∧
    decode 0x000FF0EF#32 = .jal 1 0x000FF000#32 ∧ decode 0x7FE000EF#32 = .jal 1 0x7FE#32 ∧
    decode 0xFFFFF0EF#32 = .jal 1 0xFFFFFFFE#32 ∧ decode 0x4000006F#32 = .jal 0 0x400#32 := by decide

/-- Vectors D-1, D-4, D-5, D-9, D-26 to D-31. -/
theorem test_decode_operand_extremes :
    decode 0x000002B7#32 = .lui 5 0#32 ∧ decode 0xFFFFF037#32 = .lui 0 0xFFFFF#32 ∧
    decode 0x80000FB7#32 = .lui 31 0x80000#32 ∧ decode 0xFFFFF097#32 = .auipc 1 0xFFFFF#32 ∧
    decode 0xFFF080E7#32 = .jalr 1 1 0xFFFFFFFF#32 ∧ decode 0x800282E7#32 = .jalr 5 5 0xFFFFF800#32 ∧
    decode 0x7FF100E7#32 = .jalr 1 2 0x7FF#32 ∧ decode 0x00000067#32 = .jalr 0 0 0#32 ∧
    decode 0xFFFF8FE7#32 = .jalr 31 31 0xFFFFFFFF#32 ∧ decode 0xFFFF0FE7#32 = .jalr 31 30 0xFFFFFFFF#32 := by decide

/-- Vectors X-2 to X-20. -/
theorem test_decode_other_words :
    ([0x0040F167#32, 0x00001067#32, 0xFFFFFFFF#32, 0x00000000#32, 0x00000013#32, 0x00500093#32, 0x00000073#32,
      0x00100073#32, 0x30200073#32, 0x10500073#32, 0x00001073#32, 0x0FF0000F#32, 0x0000100F#32, 0x00000033#32,
      0x00002003#32, 0x00002023#32, 0x00000063#32, 0x0000003F#32, 0x00000036#32].all
        fun w => decode w == .unrecognized) = true := by decide

/-- The bytes of S11: a whole word and three trailing bytes that are dropped. -/
theorem test_words_of_bytes :
    wordsOf [0xb7#8, 0x52#8, 0x34#8, 0x12#8, 0x6f#8, 0x00#8, 0x00#8] = [0x123452B7#32] ∧
    wordsOf [0x6f#8, 0x00#8, 0x00#8] = [] := by decide

theorem test_decodeBytes_refuses_three_bytes :
    decodeBytes [0x6f#8, 0x00#8, 0x00#8] matches .error (.truncated 3) := by decide

theorem test_encode_words :
    encode (.lui 5 0x12345#32) = 0x123452B7#32 ∧ encode (.auipc 10 1#32) = 0x00001517#32 ∧
    encode (.jal 0 0xFFFFFFFC#32) = 0xFFDFF06F#32 ∧ encode (.jalr 5 5 0xFFFFF800#32) = 0x800282E7#32 := by decide

theorem test_decodeTableWord : decodeTableWord 32 0x00408167 = some (.jalr 2 1 4#32) := by decide

/-! ### The register file (95_test_vectors.md 2.2) -/

theorem test_write_zero_is_dropped : (State.reset.writeReg 0 0xCAFEBABE#32).readReg 0 = 0#32 := by decide
theorem test_write_31_does_not_alias_30 :
    (State.reset.writeReg 31 0xFFFFFFFF#32).readReg 31 = 0xFFFFFFFF#32 ∧
    (State.reset.writeReg 31 0xFFFFFFFF#32).readReg 30 = State.reset.readReg 30 := by decide

/-! ### Execute (95_test_vectors.md 2.4, 2.5) -/

/-- E2: not shifted, not sign-extended. -/
theorem test_exec_lui_raw : after (exec (.lui 1 0xFFFFF#32) (start 0 0)) (·.readReg 1) = some 0x000FFFFF#32 := by decide
/-- E3. -/
theorem test_exec_lui_rd_zero : after (exec (.lui 0 0xFFFFF#32) (start 0 0)) id = some (start 0 0) := by decide
/-- E5. -/
theorem test_exec_auipc_adds_raw :
    after (exec (.auipc 10 1#32) (start 0 0)) (·.readReg 10) = some 0x00001001#32 := by decide
/-- E9: the sum wraps. -/
theorem test_exec_auipc_wraps :
    after (exec (.auipc 1 0xFFFFF#32) ((start 0 0).setPc 0xFFFFFFFF#32)) (·.readReg 1) = some 0x000FFFFE#32 := by decide
/-- E14. -/
theorem test_exec_jal_negative :
    after (exec (.jal 5 0xFFF00000#32) (start 0 0)) (fun t => (t.pc, t.npc, t.readReg 5)) =
      some (0x1000#32, 0xFFF01000#32, 0x1004#32) := by decide
/-- E16: the link is the npc at entry. -/
theorem test_exec_jal_links_entry_npc :
    after (exec (.jal 1 8#32) ((start 0 0).setNpc 0xDEADBEEF#32)) (fun t => (t.npc, t.readReg 1)) =
      some (0x1008#32, 0xDEADBEEF#32) := by decide
/-- E20: the base is read before the link is written. -/
theorem test_exec_jalr_same_register :
    after (exec (.jalr 5 5 0xFFFFF800#32) (start 5 0x2000#32)) (fun t => (t.npc, t.readReg 5)) =
      some (0x1800#32, 0x1004#32) := by decide
/-- E21: bit 0 of the target is kept. -/
theorem test_exec_jalr_odd_target :
    after (exec (.jalr 1 1 0xFFFFFFFF#32) (start 1 0x2000#32)) (fun t => (t.npc, t.readReg 1)) =
      some (0x1FFF#32, 0x1004#32) := by decide
/-- S8. -/
theorem test_exec_unrecognized : after (exec .unrecognized (start 7 9#32)) id = some (start 7 9#32) := by decide

/-! ### Step (95_test_vectors.md 2.6) -/

/-- T2: pc wraps. -/
theorem test_step_unrecognized_wraps :
    after (step (placed 0xFFFFFFFC#32 0xFFFFFFFF 0 0)) (fun t => (t.pc, t.npc)) = some (0#32, 0#32) := by decide
/-- T3. -/
theorem test_step_jal :
    after (step (placed 0x10#32 0x008000EF 0 0)) (fun t => (t.pc, t.readReg 1)) = some (0x18#32, 0x14#32) := by decide
/-- T4. -/
theorem test_step_jalr :
    after (step (placed 0x10#32 0x00408167 1 0x100#32)) (fun t => (t.pc, t.readReg 2)) =
      some (0x104#32, 0x14#32) := by decide
/-- T6. -/
theorem test_step_auipc :
    after (step (placed 0x10#32 0x00001517 0 0)) (fun t => (t.pc, t.readReg 10)) = some (0x14#32, 0x11#32) := by decide
/-- R47: an address that is not a multiple of 4 from the base has no word, the last whole word of the image has. -/
theorem test_fetch_on_the_grid_only :
    (State.launch State.reset.x 0#32 [0x37#8, 0x53#8, 0#8, 0#8, 0xe7#8, 0#8, 3#8, 0#8, 1#8]).fetch 4#32 =
      some 0x000300E7#32 ∧
    (State.launch State.reset.x 0#32 [0x37#8, 0x53#8, 0#8, 0#8, 0xe7#8, 0#8, 3#8, 0#8, 1#8]).fetch 5#32 = none ∧
    (State.launch State.reset.x 0#32 [0x37#8, 0x53#8, 0#8, 0#8, 0xe7#8, 0#8, 3#8, 0#8, 1#8]).fetch 8#32 = none := by
  decide

/-! ### Text (95_test_vectors.md 2.3, 2.7) -/

theorem test_format_vectors :
    format (.lui 15 0#32) = "lui a5,0" ∧ format (.lui 31 0x80000#32) = "lui t6,524288" ∧
    format (.auipc 10 1#32) = "auipc a0,1" ∧ format (.jal 1 8#32) = "jal ra,8" ∧
    format (.jal 0 0xFFFFFFFC#32) = "j -4" ∧ format (.jal 5 0xFFF00000#32) = "jal t0,-1048576" ∧
    format (.jalr 2 1 4#32) = "jalr sp,ra,4" ∧ format (.jalr 0 1 0#32) = "jr ra,0" ∧
    format .unrecognized = "unknown" := by decide

theorem test_line_vectors :
    line 0x000007B7#32 = "000007b7 lui a5,0\n" ∧ line 0xFFDFF06F#32 = "ffdff06f j -4\n" ∧
    line 0x00000000#32 = "00000000 unknown\n" := by decide

/-- Program P7: a byte stream with a ragged tail. -/
theorem test_stream_ragged_tail :
    streamLines [0xb7#8, 0x07#8, 0x00#8, 0x00#8, 0x67#8, 0x80#8, 0x00#8, 0x00#8, 0xef#8, 0x00#8, 0x80#8] =
      ["000007b7 lui a5,0\n", "00008067 jr ra,0\n"] := by decide

/-! ### Witnesses: each meets the hypotheses of the statement it is named after -/

theorem test_witness_ExtractFieldIsFloorDivMod : (1 ≤ 32 ∧ 0 + 32 ≤ 32) ∧ (1 ≤ 1 ∧ 31 + 1 ≤ 32) := by decide
theorem test_witness_SignExtendCopiesSignBit : (1 ≤ 1 ∧ 1 ≤ 32) ∧ (1 ≤ 32 ∧ 32 ≤ 32) := by decide
theorem test_witness_RegisterZeroHeldAtZero : State.reset.x[0] = 0#32 := by decide
theorem test_witness_CellZeroIsNotObservable : CanStep (placed 0#32 0x008000EF 0 0) := by decide
theorem test_witness_ImageBytesFormLittleEndianWords :
    [0xb7#8, 0x52#8, 0x34#8, 0x12#8][4 * 0]? = some 0xb7#8 ∧ [0xb7#8, 0x52#8, 0x34#8, 0x12#8][4 * 0 + 1]? = some 0x52#8 ∧
    [0xb7#8, 0x52#8, 0x34#8, 0x12#8][4 * 0 + 2]? = some 0x34#8 ∧
    [0xb7#8, 0x52#8, 0x34#8, 0x12#8][4 * 0 + 3]? = some 0x12#8 := by decide
theorem test_witness_StreamPrintsOneLinePerWord :
    [0x67#8, 0x80#8, 0x00#8, 0x00#8, 0xef#8][4 * 0]? = some 0x67#8 ∧
    [0x67#8, 0x80#8, 0x00#8, 0x00#8, 0xef#8][4 * 0 + 1]? = some 0x80#8 ∧
    [0x67#8, 0x80#8, 0x00#8, 0x00#8, 0xef#8][4 * 0 + 2]? = some 0x00#8 ∧
    [0x67#8, 0x80#8, 0x00#8, 0x00#8, 0xef#8][4 * 0 + 3]? = some 0x00#8 := by decide
theorem test_witness_DecodeBytesTakesFourBytes : ([] : List Byte).length < 4 ∧ [1#8, 2#8, 3#8].length < 4 := by decide
theorem test_witness_UTypeImmediateIsRawField :
    (0xFFFFF037#32).extractLsb' 0 7 = params.opcLui ∧ (0x00000017#32).extractLsb' 0 7 = params.opcAuipc := by decide
theorem test_witness_JTypeImmediateIsReassembled :
    (0x800002EF#32).extractLsb' 0 7 = params.opcJal ∧
    ((-1048576 : Int) ≤ -1048576 ∧ (-1048576 : Int) ≤ 1048574 ∧ (-1048576 : Int) % 2 = 0) ∧
    ((-1048576 : Int) ≤ 1048574 ∧ (1048574 : Int) ≤ 1048574 ∧ (1048574 : Int) % 2 = 0) := by decide
theorem test_witness_ITypeImmediateIsSignExtended :
    ((0x800282E7#32).extractLsb' 0 7 = params.opcJalr ∧ (0x800282E7#32).extractLsb' 12 3 = params.funct3Jalr) ∧
    ((-2048 : Int) ≤ -2048 ∧ (-2048 : Int) ≤ 2047) ∧ ((-2048 : Int) ≤ 2047 ∧ (2047 : Int) ≤ 2047) := by decide
theorem test_witness_OpcodeRowsAreDisjoint :
    (Instr.jalr 2 1 4#32) ≠ .unrecognized ∧
    0x00408167#32 &&& rowMask (.jalr 2 1 4#32) = rowMatch (.jalr 2 1 4#32) ∧ (Instr.jalr 0 0 0#32) ≠ .unrecognized ∧
    0x00408167#32 &&& rowMask (.jalr 0 0 0#32) = rowMatch (.jalr 0 0 0#32) := by decide
theorem test_witness_OtherWordsAreUnrecognized :
    (0x00000036#32).extractLsb' 0 2 ≠ 0b11#2 ∧
    ((0x0040F167#32).extractLsb' 0 7 = 0b1100111#7 ∧ (0x0040F167#32).extractLsb' 12 3 ≠ 0b000#3) ∧
    (0x00000073#32).extractLsb' 0 7 ∈ [0b1100011#7, 0b0000011#7, 0b0100011#7, 0b0010011#7, 0b0110011#7, 0b0001111#7,
      0b1110011#7, 0b0101111#7] ∧
    (0x0000000B#32).extractLsb' 0 7 ∉ [params.opcLui, params.opcAuipc, params.opcJal, params.opcJalr] := by decide
theorem test_witness_DecodeAfterEncodeIsIdentity :
    (Instr.lui 31 0xFFFFF#32).wf = true ∧ (Instr.jal 0 0xFFF00000#32).wf = true ∧
    (Instr.jalr 0 31 0xFFFFF800#32).wf = true ∧ Instr.unrecognized.wf = true := by decide
theorem test_witness_EncodeAfterDecodeGivesWordBack : decode 0xFFFFF0EF#32 ≠ .unrecognized := by decide
theorem test_witness_RoundTripForAnyDistinctOpcodes :
    [params.opcLui, params.opcAuipc, params.opcJal, params.opcJalr].Nodup ∧ (Instr.jalr 1 2 0x7FF#32).wf = true ∧
    (Instr.jalr 1 2 0x7FF#32) ≠ .unrecognized := by decide
theorem test_witness_LuiWritesRawImmediate :
    (0xFFFFF#32).toNat ≤ 0xFFFFF ∧ (0 : RegIdx) = 0 ∧ decode 0xFFFFF0B7#32 = .lui 1 0xFFFFF#32 := by decide
theorem test_witness_AuipcAddsRawImmediateToPc :
    (0xFFFFF#32).toNat ≤ 0xFFFFF ∧ (0 : RegIdx) = 0 ∧ decode 0xFFFFF097#32 = .auipc 1 0xFFFFF#32 := by decide
theorem test_witness_JalrLinksEntryNpcAndJumps :
    ((0x00001067#32).extractLsb' 0 7 = 0b1100111#7 ∧ (0x00001067#32).extractLsb' 12 3 ≠ 0b000#3) ∧
    ((0x00000067#32).extractLsb' 0 7 = 0b1100111#7 ∧ (0x00000067#32).extractLsb' 12 3 = 0b000#3) ∧
    decode 0x00408167#32 = .jalr 2 1 4#32 := by decide
theorem test_witness_UnrecognizedChangesNothing : decode 0x00000013#32 = .unrecognized := by decide
theorem test_witness_JumpsReadBeforeTheyWrite : (1 : RegIdx) ≠ 0 ∧ (31 : RegIdx) ≠ 0 := by decide
theorem test_witness_JumpTargetsAreNotChecked :
    (start 1 0x1000#32).readReg 1 = 0x1FFF#32 - 0xFFF#32 ∧ decode 0x7FFFF0EF#32 = .jal 1 0x000FFFFE#32 := by decide
theorem test_witness_ExecuteReadsOnlyItsSources :
    (start 2 7#32).pc = (start 3 9#32).pc ∧ (start 2 7#32).npc = (start 3 9#32).npc ∧
    (∀ r, (Instr.jalr 4 1 0#32).source = some r → (start 2 7#32).readReg r = (start 3 9#32).readReg r) := by
  refine ⟨rfl, rfl, ?_⟩
  intro r h
  injection h with h
  subst h
  decide
theorem test_witness_ExecuteWritesOnlyItsDestination :
    (Instr.lui 0 5#32).dest = some 0 ∧ (Instr.lui 0 5#32).dest ≠ some 1 := by decide
theorem test_witness_ExecuteNeverWritesPcOrImage : (Instr.auipc 1 5#32).isJump = false := by decide
theorem test_witness_StepRunsDecodedOp :
    let s := placed 0xFFFFFFFC#32 0x008000EF 0 0
    s.imageBase ≤ s.pc ∧ (s.pc.toNat - s.imageBase.toNat) % 4 = 0 ∧ Memory.read s.image s.pc.toNat = some 0xEF#8 ∧
    Memory.read s.image (s.pc.toNat + 1) = some 0x00#8 ∧ Memory.read s.image (s.pc.toNat + 2) = some 0x80#8 ∧
    Memory.read s.image (s.pc.toNat + 3) = some 0x00#8 := by decide
theorem test_witness_StepRunsDecodedOp_bytes :
    decodeBytes [0xEF#8, 0x00#8, 0x80#8, 0x00#8] = .ok (.jal 1 8#32, []) := by rfl
theorem test_witness_StepStopsExactlyWhereNoWord :
    State.reset.fetch State.reset.pc = none ∧ CanStep (placed 0xFFFFFFFC#32 0x00000013 0 0) := by decide
theorem test_witness_StepUnderAnyFetch :
    (fun _ : Word => (none : Option Word)) State.reset.pc = none ∧
    (fun _ : Word => some 0x0000006F#32) State.reset.pc = some 0x0000006F#32 := ⟨rfl, rfl⟩
theorem test_witness_PlacedWordIsFetched :
    (0x0F < (0x10#32).toNat ∨ (0x10#32).toNat + 4 ≤ 0x0F) ∧ (0x14 < (0x10#32).toNat ∨ (0x10#32).toNat + 4 ≤ 0x14) ∧
    (State.reset.imageBase ≤ State.reset.pc ∧ (State.reset.pc.toNat - State.reset.imageBase.toNat) % 4 = 0) ∧
    (4#32 : Word) ≠ State.reset.pc ∧
    ¬ ((State.reset.setPc 5#32).imageBase ≤ (State.reset.setPc 5#32).pc ∧
      ((State.reset.setPc 5#32).pc.toNat - (State.reset.setPc 5#32).imageBase.toNat) % 4 = 0) := by decide
theorem test_witness_StepOfOtherOpsAdvancesByFour :
    (placed 0xFFFFFFFC#32 0x123452B7 0 0).fetch 0xFFFFFFFC#32 = some 0x123452B7#32 ∧
    (decode 0x123452B7#32).isJump = false ∧ (decode 0x123452B7#32).dest ≠ some 6 := by decide
theorem test_witness_StepOfJalGoesToTarget :
    (placed 0x10#32 0x008000EF 0 0).fetch 0x10#32 = some 0x008000EF#32 ∧ decode 0x008000EF#32 = .jal 1 8#32 := by decide
theorem test_witness_StepOfJalrGoesToTarget :
    (placed 0x10#32 0x00408167 0 0).fetch 0x10#32 = some 0x00408167#32 ∧ decode 0x00408167#32 = .jalr 2 1 4#32 := by
  decide
theorem test_witness_LaunchRunsWordZeroFirst : (31 : RegIdx) ≠ 0 := by decide
theorem test_witness_StepKeepsTheInvariant :
    Inv (placed 0x10#32 0x008000EF 0 0) ∧ ∃ t, step (placed 0x10#32 0x008000EF 0 0) = .next t :=
  ⟨by decide, ⟨_, rfl⟩⟩
theorem test_witness_RunsNeverChangeFetch : ∃ t, core.run 1 (placed 0x10#32 0x0000006F 0 0) = .next t := ⟨_, rfl⟩
theorem test_witness_ImmediatesPrintInDecimal :
    1 ≠ 0 ∧ 0 = 0 ∧ (0x80000000#32).toInt < 0 ∧ 0 ≤ (0x7FFFFFFF#32).toInt := by decide
theorem test_witness_RegisterNamesAreDistinct : regText params 8 = regText params 8 := rfl
theorem test_witness_TextDeterminesTheOp : format (.jal 0 0#32) = format (.jal 0 0#32) := rfl
theorem test_witness_UnrecognizedLinesDifferInTheWordOnly :
    (line 0x00000000#32 = line 0x00000000#32) ∧ decode 0x00000000#32 = .unrecognized ∧ decode 0xFFFFFFFF#32 = .unrecognized := by decide

end Sys2Proof.Tests
end

section
/-! A history of register writes: what a read gives after it and what it leaves unchanged (10_state.md R22 to R24). -/

namespace Sys2Proof.Machine

/-- What every single write keeps, every history of writes keeps. -/
theorem State.afterWrites_keeps {α : Type} (f : State → α)
    (writeReg_keeps : ∀ s i v, f (s.writeReg i v) = f s) (s : State) (h : List (RegIdx × Word)) :
    f (s.afterWrites h) = f s := by
  induction h generalizing s with
  | nil => rfl
  | cons iv h ih => exact (ih _).trans (writeReg_keeps s iv.1 iv.2)

@[simp] theorem State.afterWrites_pc (s : State) (h : List (RegIdx × Word)) : (s.afterWrites h).pc = s.pc :=
  State.afterWrites_keeps State.pc State.writeReg_pc s h

@[simp] theorem State.afterWrites_npc (s : State) (h : List (RegIdx × Word)) : (s.afterWrites h).npc = s.npc :=
  State.afterWrites_keeps State.npc State.writeReg_npc s h

@[simp] theorem State.afterWrites_imageBase (s : State) (h : List (RegIdx × Word)) :
    (s.afterWrites h).imageBase = s.imageBase :=
  State.afterWrites_keeps State.imageBase State.writeReg_imageBase s h

@[simp] theorem State.afterWrites_image (s : State) (h : List (RegIdx × Word)) : (s.afterWrites h).image = s.image :=
  State.afterWrites_keeps State.image State.writeReg_image s h

theorem State.afterWrites_cell_zero (s : State) (h : List (RegIdx × Word)) : (s.afterWrites h).x[0] = s.x[0] :=
  State.afterWrites_keeps (fun t => t.x[0]) State.writeReg_cell_zero s h

theorem sameImage_afterWrites (s : State) (h : List (RegIdx × Word)) : SameImage s (s.afterWrites h) :=
  ⟨s.afterWrites_imageBase h, fun a => by rw [s.afterWrites_image h]⟩

/-- The first write of a history counts only where no later write has the same index. -/
theorem lastWrite_cons_getD (i j : RegIdx) (v u : Word) (h : List (RegIdx × Word)) :
    (lastWrite j ((i, v) :: h)).getD u = (lastWrite j h).getD (if i = j then v else u) := by
  rw [lastWrite]
  cases lastWrite j h with
  | some w => rfl
  | none => by_cases hij : i = j <;> simp [hij]

/-- Last write wins, at every index that takes writes. -/
theorem State.readReg_afterWrites {j : RegIdx} (hj : j ≠ 0) (s : State) (h : List (RegIdx × Word)) :
    (s.afterWrites h).readReg j = (lastWrite j h).getD (s.readReg j) := by
  induction h generalizing s with
  | nil => rfl
  | cons iv h ih =>
    obtain ⟨i, v⟩ := iv
    calc (s.afterWrites ((i, v) :: h)).readReg j
        = (lastWrite j h).getD ((s.writeReg i v).readReg j) := ih (s.writeReg i v)
      _ = (lastWrite j h).getD (if i = j then v else s.readReg j) := by
          simp only [State.readReg_writeReg, and_iff_left hj]
      _ = (lastWrite j ((i, v) :: h)).getD (s.readReg j) := (lastWrite_cons_getD i j v _ h).symm

/-- Settles O3: the last write wins by induction on the history; the other fields are kept by each write. -/
theorem readGivesMostRecentWrite : Obligations.ReadGivesMostRecentWrite := by
  intro s h j
  refine ⟨?_, s.afterWrites_pc h, s.afterWrites_npc h, sameImage_afterWrites s h⟩
  split
  case isTrue hj => rw [hj, State.readReg_zero]
  case isFalse hj => exact State.readReg_afterWrites hj s h

/-- Settles O4: a read of index 0 does not look at the cell, and no write reaches the cell. -/
theorem registerZeroHeldAtZero : Obligations.RegisterZeroHeldAtZero := by
  intro s h v
  exact ⟨State.readReg_zero _, State.readReg_zero _, fun h0 => (s.afterWrites_cell_zero h).trans h0⟩

end Sys2Proof.Machine
end

section
/-! The input boundary: the value of a little-endian word, and how many words an image has and which bytes form each
(20_memory.md R42, R43). -/

namespace Sys2Proof.Machine

/-- Appending a byte below a value shifts the value up by one byte: R43's weights, one place at a time. -/
theorem toNat_append_byte {n : Nat} (hi : BitVec n) (lo : Byte) : (hi ++ lo).toNat = hi.toNat * 2 ^ 8 + lo.toNat := by
  rw [BitVec.toNat_append, ← Nat.shiftLeft_add_eq_or_of_lt lo.isLt, Nat.shiftLeft_eq]

/-- R43: the first byte in file order is the least significant. -/
theorem wordOfBytes_toNat (b0 b1 b2 b3 : Byte) :
    (wordOfBytes b0 b1 b2 b3).toNat = b0.toNat + b1.toNat * 2 ^ 8 + b2.toNat * 2 ^ 16 + b3.toNat * 2 ^ 24 := by
  have horner : (wordOfBytes b0 b1 b2 b3).toNat =
      ((b3.toNat * 2 ^ 8 + b2.toNat) * 2 ^ 8 + b1.toNat) * 2 ^ 8 + b0.toNat := by
    simp only [wordOfBytes, toNat_append_byte]
  omega

/-- R42: four bytes complete a word; the 1 to 3 bytes of a ragged tail complete none. -/
theorem wordsOf_length : ∀ bs : List Byte, (wordsOf bs).length = bs.length / 4
  | [] | [_] | [_, _] | [_, _, _] => by simp [wordsOf]
  | b0 :: b1 :: b2 :: b3 :: rest =>
    calc (wordsOf (b0 :: b1 :: b2 :: b3 :: rest)).length
        = rest.length / 4 + 1 := congrArg (· + 1) (wordsOf_length rest)
      _ = (rest.length + 4) / 4 := (Nat.add_div_right rest.length (by decide)).symm

/-- R42: word `i` is formed of bytes `4i` to `4i + 3`. -/
theorem wordsOf_getElem? {bs : List Byte} {i : Nat} {b0 b1 b2 b3 : Byte} (h0 : bs[4 * i]? = some b0)
    (h1 : bs[4 * i + 1]? = some b1) (h2 : bs[4 * i + 2]? = some b2) (h3 : bs[4 * i + 3]? = some b3) :
    (wordsOf bs)[i]? = some (wordOfBytes b0 b1 b2 b3) := by
  induction bs using wordsOf.induct generalizing i with
  | case1 c0 c1 c2 c3 rest ih =>
    cases i with
    | zero => cases h0; cases h1; cases h2; cases h3; rfl
    | succ j => exact ih h0 h1 h2 h3
  | case2 bs short =>
    match bs with
    | [] | [_] | [_, _] | [_, _, _] => simp at h3
    | c0 :: c1 :: c2 :: c3 :: rest => exact (short c0 c1 c2 c3 rest rfl).elim

/-- Settles O6: both halves follow the recursion of `wordsOf`, four bytes at a time. -/
theorem imageBytesFormLittleEndianWords : Obligations.ImageBytesFormLittleEndianWords := by
  intro bs
  refine ⟨wordsOf_length bs, fun i b0 b1 b2 b3 h0 h1 h2 h3 => ?_⟩
  exact ⟨wordOfBytes b0 b1 b2 b3, wordsOf_getElem? h0 h1 h2 h3, wordOfBytes_toNat b0 b1 b2 b3⟩

end Sys2Proof.Machine
end

section
/-! Decoding in terms of slices of the word: the two bit-field utilities as numbers (30_encoding.md R62, R63), the
fragments of each immediate (R65, R66, R67), and which Op each opcode gives (R69). -/

namespace Sys2Proof.Machine

/-! ### The bit-field utilities as numbers -/

theorem extractField_toNat (w : Word) (lsb width : Nat) (ok : 1 ≤ width ∧ lsb + width ≤ 32) :
    (extractField w lsb width ok).toNat = w.toNat / 2 ^ lsb % 2 ^ width := by
  rw [extractField_eq_slice, BitVec.toNat_setWidth_of_le (by omega), BitVec.extractLsb'_toNat,
    Nat.shiftRight_eq_div_pow]

theorem extractField_whole (w : Word) : extractField w 0 32 = w := by
  rw [extractField_eq_slice, BitVec.extractLsb'_eq_self, BitVec.setWidth_eq]

/-- R63's test of bit `width - 1`, as a quotient. -/
theorem msb_iff_div_ne_zero {n : Nat} (b : BitVec n) : b.msb = true ↔ b.toNat / 2 ^ (n - 1) ≠ 0 := by
  rw [BitVec.msb_eq_decide, decide_eq_true_iff, Nat.div_ne_zero_iff, and_iff_right (Nat.two_pow_pos _).ne']

/-- Settles O1: a slice of bits is a quotient modulo a power of two, and the slice of all 32 bits is the word. -/
theorem extractFieldIsFloorDivMod : Obligations.ExtractFieldIsFloorDivMod :=
  fun w lsb width ok => ⟨extractField_toNat w lsb width ok, extractField_whole w⟩

/-- Settles O2: truncation keeps the value modulo `2 ^ width`, and the copied sign bit adds `2 ^ 32 - 2 ^ width`. -/
theorem signExtendCopiesSignBit : Obligations.SignExtendCopiesSignBit := by
  intro value width ok
  obtain ⟨_, hle⟩ := ok
  have sign := msb_iff_div_ne_zero (value.setWidth width)
  rw [BitVec.toNat_setWidth] at sign
  rw [signExtend, BitVec.toNat_signExtend, BitVec.toNat_setWidth_of_le hle, BitVec.toNat_setWidth]
  by_cases clear : value.toNat % 2 ^ width / 2 ^ (width - 1) = 0
  · rw [if_neg (mt sign.mp (not_not.mpr clear)), if_pos clear, Nat.add_zero]
  · rw [if_pos (sign.mpr clear), if_neg clear]

/-! ### The immediates -/

/-- An appended field weighs the bits above it by `2 ^ m`, its width. -/
theorem toNat_append_weight {n m : Nat} (hi : BitVec n) (lo : BitVec m) :
    (hi ++ lo).toNat = hi.toNat * 2 ^ m + lo.toNat := by
  rw [BitVec.toNat_append, ← Nat.shiftLeft_add_eq_or_of_lt lo.isLt, Nat.shiftLeft_eq]

theorem uImmediate_eq_slice (w : Word) : uImmediate w = (w.extractLsb' 12 20).setWidth 32 :=
  extractField_eq_slice w 12 20 _

theorem iImmediate_eq_slice (w : Word) : iImmediate w = (w.extractLsb' 20 12).signExtend 32 := by
  rw [iImmediate, signExtend, extractField_eq_slice, BitVec.setWidth_setWidth_of_le _ (by decide), BitVec.setWidth_eq]

/-- The 21 bits `{w[31], w[19:12], w[20], w[30:21], 0b0}` of R66, before their sign extension. -/
def jRaw (w : Word) : BitVec 21 :=
  (w.extractLsb' 31 1 ++ w.extractLsb' 12 8 ++ w.extractLsb' 20 1 ++ w.extractLsb' 21 10 ++ 0#1 :
    BitVec (1 + 8 + 1 + 10 + 1))

theorem jImmediate_eq_jRaw (w : Word) : jImmediate w = (jRaw w).signExtend 32 := by
  rw [jImmediate, signExtend]
  congr 1
  simp only [extractField_eq_slice]
  ext k hk
  simp only [← BitVec.getLsbD_eq_getElem, jRaw, BitVec.getLsbD_append, BitVec.getLsbD_extractLsb']
  interval_cases k <;> simp

/-- R66's weights. -/
theorem jRaw_toNat (w : Word) :
    (jRaw w).toNat = (w.extractLsb' 31 1).toNat * 2 ^ 20 + (w.extractLsb' 12 8).toNat * 2 ^ 12
      + (w.extractLsb' 20 1).toNat * 2 ^ 11 + (w.extractLsb' 21 10).toNat * 2 ^ 1 := by
  simp only [jRaw, toNat_append_weight, BitVec.toNat_ofNat]
  omega

theorem jRaw_bit_zero (w : Word) : (jRaw w).getLsbD 0 = false := by
  rw [jRaw, BitVec.getLsbD_append]
  rfl

/-- R66 puts together again what the encoder scatters: the low 21 bits of an even immediate. -/
theorem jRaw_encodeJ (opc : BitVec 7) (rd : RegIdx) {imm : Word} (even : imm.getLsbD 0 = false) :
    jRaw (encodeJ opc rd imm) = imm.setWidth 21 := by
  obtain ⟨_, _, h12, h20, h21, h31⟩ := encodeJ_fields opc rd imm
  rw [BitVec.getLsbD_eq_getElem (by decide)] at even
  rw [jRaw, h12, h20, h21, h31]
  ext k hk
  simp only [← BitVec.getLsbD_eq_getElem, BitVec.getLsbD_append, BitVec.getLsbD_extractLsb', BitVec.getLsbD_setWidth]
  interval_cases k <;> simp [even]

/-! ### The range of an immediate -/

/-- The signed value has the parity of bit 0. -/
theorem bit_zero_eq_false_iff_toInt_even {n : Nat} (b : BitVec (n + 1)) : b.getLsbD 0 = false ↔ b.toInt % 2 = 0 := by
  rw [← BitVec.testBit_toNat, Nat.testBit_zero, decide_eq_false_iff_not, BitVec.toInt_eq_toNat_cond, Nat.pow_succ]
  push_cast
  split <;> omega

theorem uImmOk_iff (imm : Word) : uImmOk imm = true ↔ imm.toNat < 2 ^ 20 := by
  rw [uImmOk, decide_eq_true_iff]

theorem jImmOk_iff (imm : Word) :
    jImmOk imm = true ↔ -1048576 ≤ imm.toInt ∧ imm.toInt ≤ 1048574 ∧ imm.getLsbD 0 = false := by
  rw [jImmOk, Bool.and_eq_true, decide_eq_true_iff, Bool.not_eq_true', and_assoc]

theorem iImmOk_iff (imm : Word) : iImmOk imm = true ↔ -2048 ≤ imm.toInt ∧ imm.toInt ≤ 2047 := by
  rw [iImmOk, decide_eq_true_iff]

/-- R65's range: a zero-extended field keeps its value. -/
theorem uImmOk_setWidth (b : BitVec 20) : uImmOk (b.setWidth 32) = true := by
  rw [uImmOk_iff, BitVec.toNat_setWidth_of_le (by decide)]
  exact b.isLt

/-- R66's range: a 21-bit signed value is at most 1048575, and this one is even. -/
theorem jImmOk_jRaw (w : Word) : jImmOk ((jRaw w).signExtend 32) = true := by
  have bit0 : ((jRaw w).signExtend 32).getLsbD 0 = false := by
    rw [BitVec.getLsbD_signExtend]
    exact jRaw_bit_zero w
  have even := (bit_zero_eq_false_iff_toInt_even (jRaw w)).mp (jRaw_bit_zero w)
  have low := (jRaw w).le_toInt
  have high := (jRaw w).two_mul_toInt_lt
  rw [jImmOk_iff, BitVec.toInt_signExtend_of_le (by decide)]
  exact ⟨low, by omega, bit0⟩

/-- R67's range: any 12-bit signed value. -/
theorem iImmOk_signExtend (b : BitVec 12) : iImmOk (b.signExtend 32) = true := by
  have low := b.le_toInt
  have high := b.two_mul_toInt_lt
  rw [iImmOk_iff, BitVec.toInt_signExtend_of_le (by decide)]
  exact ⟨low, by omega⟩

/-- A word whose signed value fits in `n` bits is the sign extension of its low `n` bits. -/
theorem signExtend_setWidth_of_fits {n : Nat} (le : n ≤ 32) {imm : Word} (low : -2 ^ n ≤ 2 * imm.toInt)
    (high : 2 * imm.toInt < 2 ^ n) : (imm.setWidth n).signExtend 32 = imm := by
  apply BitVec.eq_of_toInt_eq
  calc ((imm.setWidth n).signExtend 32).toInt
      = (imm.signExtend n).toInt := by
        rw [BitVec.toInt_signExtend_of_le le, BitVec.signExtend_eq_setWidth_of_le imm le]
    _ = imm.toInt.bmod (2 ^ n) := BitVec.toInt_signExtend_eq_toInt_bmod_of_le imm le
    _ = imm.toInt := Int.bmod_eq_of_le_mul_two (by push_cast; omega) (by push_cast; omega)

/-! ### The Op of each opcode -/

section
variable {c : Config} {w : Word}

theorem decodeWith_of_opcLui (opc : w.extractLsb' 0 7 = c.opcLui) :
    decodeWith c w = .lui (w.extractLsb' 7 5) ((w.extractLsb' 12 20).setWidth 32) := by
  rw [decodeWith, opcodeField_eq_slice, if_pos opc, regField_eq_slice, uImmediate_eq_slice]

variable (distinct : [c.opcLui, c.opcAuipc, c.opcJal, c.opcJalr].Nodup)
include distinct

/-- An opcode differs from each that R69 tests before it. -/
theorem opcode_ne_earlier :
    c.opcAuipc ≠ c.opcLui ∧ (c.opcJal ≠ c.opcLui ∧ c.opcJal ≠ c.opcAuipc) ∧
    (c.opcJalr ≠ c.opcLui ∧ c.opcJalr ≠ c.opcAuipc ∧ c.opcJalr ≠ c.opcJal) := by
  simp only [List.nodup_cons, List.mem_cons, not_or] at distinct
  obtain ⟨⟨la, lj, lr, _⟩, ⟨aj, ar, _⟩, ⟨jr, _⟩, _⟩ := distinct
  exact ⟨Ne.symm la, ⟨Ne.symm lj, Ne.symm aj⟩, Ne.symm lr, Ne.symm ar, Ne.symm jr⟩

theorem decodeWith_of_opcAuipc (opc : w.extractLsb' 0 7 = c.opcAuipc) :
    decodeWith c w = .auipc (w.extractLsb' 7 5) ((w.extractLsb' 12 20).setWidth 32) := by
  obtain ⟨notLui, _⟩ := opcode_ne_earlier distinct
  rw [decodeWith, opcodeField_eq_slice, opc, if_neg notLui, if_pos rfl, regField_eq_slice, uImmediate_eq_slice]

theorem decodeWith_of_opcJal (opc : w.extractLsb' 0 7 = c.opcJal) :
    decodeWith c w = .jal (w.extractLsb' 7 5) ((jRaw w).signExtend 32) := by
  obtain ⟨_, ⟨notLui, notAuipc⟩, _⟩ := opcode_ne_earlier distinct
  rw [decodeWith, opcodeField_eq_slice, opc, if_neg notLui, if_neg notAuipc, if_pos rfl, regField_eq_slice,
    jImmediate_eq_jRaw]

theorem decodeWith_of_opcJalr (opc : w.extractLsb' 0 7 = c.opcJalr) (funct3 : w.extractLsb' 12 3 = c.funct3Jalr) :
    decodeWith c w = .jalr (w.extractLsb' 7 5) (w.extractLsb' 15 5) ((w.extractLsb' 20 12).signExtend 32) := by
  obtain ⟨_, _, notLui, notAuipc, notJal⟩ := opcode_ne_earlier distinct
  rw [decodeWith, opcodeField_eq_slice, opc, funct3Field_eq_slice, funct3, if_neg notLui, if_neg notAuipc,
    if_neg notJal, if_pos ⟨rfl, rfl⟩, regField_eq_slice, regField_eq_slice, iImmediate_eq_slice]

end

theorem params_opcodes_nodup : [params.opcLui, params.opcAuipc, params.opcJal, params.opcJalr].Nodup := by decide

/-- Settles O8: the raw field is never extended or shifted, so it is below `2 ^ 20`. -/
theorem uTypeImmediateIsRawField : Obligations.UTypeImmediateIsRawField := by
  intro w
  have fits := (uImmOk_iff _).mp (uImmOk_setWidth (w.extractLsb' 12 20))
  exact ⟨decodeWith_of_opcLui, decodeWith_of_opcAuipc params_opcodes_nodup, Nat.le_of_lt_succ fits⟩

theorem decode_encodeJ (rd : RegIdx) {imm : Word} (ok : jImmOk imm = true) :
    decode (encodeJ params.opcJal rd imm) = .jal rd imm := by
  obtain ⟨low, high, even⟩ := (jImmOk_iff imm).mp ok
  obtain ⟨opc, hrd, _⟩ := encodeJ_fields params.opcJal rd imm
  rw [decode, decodeWith_of_opcJal params_opcodes_nodup opc, hrd, jRaw_encodeJ _ _ even,
    signExtend_setWidth_of_fits (by decide) (by omega) (by omega)]

theorem decode_encodeI (rd rs1 : RegIdx) {imm : Word} (ok : iImmOk imm = true) :
    decode (encodeI params.opcJalr params.funct3Jalr rd rs1 imm) = .jalr rd rs1 imm := by
  obtain ⟨low, high⟩ := (iImmOk_iff imm).mp ok
  obtain ⟨opc, hrd, funct3, hrs1, himm⟩ := encodeI_fields params.opcJalr params.funct3Jalr rd rs1 imm
  rw [decode, decodeWith_of_opcJalr params_opcodes_nodup opc funct3, hrd, hrs1, himm,
    signExtend_setWidth_of_fits (by decide) (by omega) (by omega)]

/-- Settles O9: the 21 bits are `jRaw`, and the encoder attains every even value of the range. -/
theorem jTypeImmediateIsReassembled : Obligations.JTypeImmediateIsReassembled := by
  refine ⟨fun w opc => ?_, fun k low high even => ?_⟩
  · obtain ⟨low, high, bit0⟩ := (jImmOk_iff _).mp (jImmOk_jRaw w)
    exact ⟨jRaw w, jRaw_toNat w, decodeWith_of_opcJal params_opcodes_nodup opc, bit0, low, high⟩
  · have value : (BitVec.ofInt 32 k).toInt = k := BitVec.toInt_ofInt_eq_self (by decide) (by omega) (by omega)
    have bit0 := (bit_zero_eq_false_iff_toInt_even (BitVec.ofInt 32 k)).mpr (by rw [value, even])
    have ok := (jImmOk_iff (BitVec.ofInt 32 k)).mpr (by rw [value]; exact ⟨low, high, bit0⟩)
    exact ⟨_, 0, _, decode_encodeJ 0 ok, value⟩

/-- Settles O10: the 12 bits are the slice `31:20`, and the encoder attains every value of the range. -/
theorem iTypeImmediateIsSignExtended : Obligations.ITypeImmediateIsSignExtended := by
  refine ⟨fun w opc funct3 => ?_, fun k low high => ?_⟩
  · exact ⟨decodeWith_of_opcJalr params_opcodes_nodup opc funct3, (iImmOk_iff _).mp (iImmOk_signExtend _)⟩
  · have value : (BitVec.ofInt 32 k).toInt = k := BitVec.toInt_ofInt_eq_self (by decide) (by omega) (by omega)
    have ok := (iImmOk_iff (BitVec.ofInt 32 k)).mpr (by rw [value]; exact ⟨low, high⟩)
    exact ⟨_, 0, 0, _, decode_encodeI 0 0 ok, value⟩

end Sys2Proof.Machine
end

section
/-! The upper-immediate instructions: the frame of one register write, the value of a U-type word, and what LUI executes
to (40_upper_immediate.md R90; 10_state.md R22, R23, R30; 30_encoding.md R64). -/

namespace Sys2Proof.Machine

/-! ### The frame of one register write -/

theorem regsAre_writeReg (s : State) (rd : RegIdx) (v : Word) : RegsAre s (s.writeReg rd v) rd v := by
  intro r
  simp only [State.readReg_writeReg, @eq_comm _ rd r]

theorem sameImage_writeReg (s : State) (rd : RegIdx) (v : Word) : SameImage s (s.writeReg rd v) :=
  ⟨s.writeReg_imageBase rd v, fun a => by rw [s.writeReg_image rd v]⟩

/-! ### A step whose execute part is known -/

theorem stepWord_of_exec {w : Word} {s t : State} (h : exec (decode w) s.stage = .next t) :
    stepWord w s = .next t.commit := by
  rw [stepWord, h]

/-- R30: an execute step that keeps the staged npc moves pc on by 4. -/
theorem commit_pc_of_npc_kept {s t : State} (kept : t.npc = s.stage.npc) : t.commit.pc = s.pc + 4 :=
  kept

/-! ### LUI -/

/-- R92 with U_SHIFT = 0: the operand is the raw immediate. -/
theorem uOperand_params (imm : Word) : uOperand params imm = imm := BitVec.shiftLeft_zero imm

theorem exec_lui (rd : RegIdx) (imm : Word) (s : State) : exec (.lui rd imm) s = .next (s.writeReg rd imm) :=
  calc exec (.lui rd imm) s
      = .next (s.writeReg rd (uOperand params imm)) := rfl
    _ = .next (s.writeReg rd imm) := by rw [uOperand_params]

/-- The weights of R64's U-type fields, for an immediate that the 20-bit field holds. -/
theorem encodeU_toNat (opc : BitVec 7) (rd : RegIdx) {imm : Word} (fits : imm.toNat < 2 ^ 20) :
    (encodeU opc rd imm).toNat = imm.toNat * 2 ^ 12 + rd.toNat * 2 ^ 7 + opc.toNat := by
  have field : (imm.setWidth 20).toNat = imm.toNat := by
    rw [BitVec.toNat_setWidth, Nat.mod_eq_of_lt fits]
  have horner : (encodeU opc rd imm).toNat = (imm.toNat * 2 ^ 5 + rd.toNat) * 2 ^ 7 + opc.toNat := by
    rw [encodeU, toNat_append_weight, toNat_append_weight, field]
  omega

/-- Settles O20: LUI is one register write, so its frame is that of `writeReg`, and npc stays as staged. -/
theorem luiWritesRawImmediate : Obligations.LuiWritesRawImmediate := by
  refine ⟨fun rd imm s => ?frame, fun rd imm fits => ?word, fun w s rd imm decoded => ?nextPc, ?sample⟩
  case frame =>
    have zero : rd = 0 → s.writeReg rd imm = s := by
      rintro rfl
      exact s.writeReg_zero imm
    exact ⟨s.writeReg rd imm, exec_lui rd imm s, regsAre_writeReg s rd imm, s.writeReg_pc rd imm,
      s.writeReg_npc rd imm, sameImage_writeReg s rd imm, zero⟩
  case word => exact encodeU_toNat params.opcLui rd (Nat.lt_succ_of_le fits)
  case nextPc =>
    have run : exec (decode w) s.stage = .next (s.stage.writeReg rd imm) := by rw [decoded, exec_lui]
    exact ⟨_, stepWord_of_exec run, commit_pc_of_npc_kept (s.stage.writeReg_npc rd imm)⟩
  case sample => decide

end Sys2Proof.Machine
end

section
/-! The jump instructions: what the two writes of a jump leave behind, the target of JALR, which words are JALR, and the
link value of a step (41_jumps.md R100 to R103; 10_state.md R30). -/

namespace Sys2Proof.Machine

/-! ### The destination and the frame of a jump -/

/-- A destination other than register 0 holds the value written. -/
theorem readReg_of_regsAre {s t : State} {rd : RegIdx} {v : Word} (regs : RegsAre s t rd v) (hrd : rd ≠ 0) :
    t.readReg rd = v := by
  rw [regs rd, if_pos ⟨rfl, hrd⟩]

/-- The state after the two writes of R102. -/
abbrev State.afterJump (s : State) (rd : RegIdx) (target link : Word) : State := (s.setNpc target).writeReg rd link

theorem State.afterJump_npc (s : State) (rd : RegIdx) (target link : Word) :
    (s.afterJump rd target link).npc = target :=
  (s.setNpc target).writeReg_npc rd link

theorem State.afterJump_pc (s : State) (rd : RegIdx) (target link : Word) : (s.afterJump rd target link).pc = s.pc :=
  (s.setNpc target).writeReg_pc rd link

/-- The write of npc reaches no register, so the registers are those of one write of the link. -/
theorem regsAre_afterJump (s : State) (rd : RegIdx) (target link : Word) :
    RegsAre s (s.afterJump rd target link) rd link :=
  regsAre_writeReg (s.setNpc target) rd link

theorem sameImage_afterJump (s : State) (rd : RegIdx) (target link : Word) :
    SameImage s (s.afterJump rd target link) :=
  sameImage_writeReg (s.setNpc target) rd link

/-! ### What the jumps execute to -/

/-- R103 with JALR_CLEAR_BIT0 = false: bit 0 of the target is kept. -/
theorem jalrTarget_params (src1 imm : Word) : jalrTarget params src1 imm = src1 + imm := rfl

/-- Both reads are of the state at entry. -/
theorem exec_jal (rd : RegIdx) (imm : Word) (s : State) :
    exec (.jal rd imm) s = .next (s.afterJump rd (jalTarget s.pc imm) s.npc) := rfl

/-- All reads are of the state at entry, also where `rd = rs1`. -/
theorem exec_jalr (rd rs1 : RegIdx) (imm : Word) (s : State) :
    exec (.jalr rd rs1 imm) s = .next (s.afterJump rd (jalrTarget params (s.readReg rs1) imm) s.npc) := rfl

/-- Settles O25: the target and the link are values of the state at entry, and the case `rd = rs1` is no special one. -/
theorem jumpsReadBeforeTheyWrite : Obligations.JumpsReadBeforeTheyWrite := by
  intro rd rs1 imm s hrd
  have link (target : Word) : (s.afterJump rd target s.npc).readReg rd = s.npc :=
    readReg_of_regsAre (regsAre_afterJump s rd target s.npc) hrd
  have jalr (src : RegIdx) : ∃ t, exec (.jalr rd src imm) s = .next t ∧ t.readReg rd = s.npc ∧
      t.npc = jalrTarget params (s.readReg src) imm :=
    ⟨_, exec_jalr rd src imm s, link _, s.afterJump_npc rd _ _⟩
  exact ⟨⟨_, exec_jal rd imm s, link _, s.afterJump_npc rd _ _⟩, jalr rs1, jalr rd⟩

/-! ### JALR in a word and in a step -/

/-- R69: the JALR opcode with another funct3 passes every test. -/
theorem decodeWith_of_opcJalr_of_funct3_ne {c : Config} {w : Word}
    (distinct : [c.opcLui, c.opcAuipc, c.opcJal, c.opcJalr].Nodup) (opc : w.extractLsb' 0 7 = c.opcJalr)
    (funct3 : w.extractLsb' 12 3 ≠ c.funct3Jalr) : decodeWith c w = .unrecognized := by
  obtain ⟨_, _, notLui, notAuipc, notJal⟩ := opcode_ne_earlier distinct
  rw [decodeWith, opcodeField_eq_slice, opc, funct3Field_eq_slice, if_neg notLui, if_neg notAuipc, if_neg notJal,
    if_neg (not_and_of_not_right _ funct3)]

/-- The sequencer's two actions around an execute step touch no register. -/
theorem regsAre_commit_of_stage {s t : State} {rd : RegIdx} {v : Word} (regs : RegsAre s.stage t rd v) :
    RegsAre s t.commit rd v :=
  regs

/-- R30: the npc that a jump of a step links is `pc + 4`. -/
theorem State.stage_npc_eq_pc_add_four (s : State) : s.stage.npc = s.pc + 4 := rfl

/-- Settles O23: JALR is a write of npc and a write of `rd` with values read at entry, and a step enters it with npc
staged at `pc + 4`. -/
theorem jalrLinksEntryNpcAndJumps : Obligations.JalrLinksEntryNpcAndJumps := by
  refine ⟨fun rd rs1 imm s => ?frame, fun w opc => ⟨fun other => ?otherFunct3, fun zero => ?funct3⟩,
    fun w s rd rs1 imm decoded => ?link, ?sample⟩
  case frame =>
    have target := s.afterJump_npc rd (jalrTarget params (s.readReg rs1) imm) s.npc
    rw [jalrTarget_params] at target
    exact ⟨_, exec_jalr rd rs1 imm s, target, regsAre_afterJump s rd _ _, s.afterJump_pc rd _ _,
      sameImage_afterJump s rd _ _⟩
  case otherFunct3 => exact decodeWith_of_opcJalr_of_funct3_ne params_opcodes_nodup opc other
  case funct3 => exact decodeWith_of_opcJalr params_opcodes_nodup opc zero
  case link =>
    have run := exec_jalr rd rs1 imm s.stage
    have regs := regsAre_afterJump s.stage rd (jalrTarget params (s.stage.readReg rs1) imm) s.stage.npc
    rw [← decoded] at run
    rw [s.stage_npc_eq_pc_add_four] at run regs
    exact ⟨_, stepWord_of_exec run, regsAre_commit_of_stage regs⟩
  case sample => decide

end Sys2Proof.Machine
end

section
/-! The fallback variant and totality: which words pass no test of the Decoder, what a step on one does, and that no
text is empty (30_encoding.md R69; 42_unrecognized.md R110, R112; 43_formatter.md R121 to R127). -/

namespace Sys2Proof.Machine

/-! ### The words that fail every test -/

/-- R69: the fallback is reached exactly by failing all four tests, whatever the opcodes of the configuration. -/
theorem decodeWith_eq_unrecognized_iff (c : Config) (w : Word) :
    decodeWith c w = .unrecognized ↔
      w.extractLsb' 0 7 ≠ c.opcLui ∧ w.extractLsb' 0 7 ≠ c.opcAuipc ∧ w.extractLsb' 0 7 ≠ c.opcJal ∧
        ¬ (w.extractLsb' 0 7 = c.opcJalr ∧ w.extractLsb' 12 3 = c.funct3Jalr) := by
  rw [decodeWith, opcodeField_eq_slice, funct3Field_eq_slice]
  constructor
  · intro decoded
    split_ifs at decoded with notLui notAuipc notJal notJalr
    exact ⟨notLui, notAuipc, notJal, notJalr⟩
  · rintro ⟨notLui, notAuipc, notJal, notJalr⟩
    rw [if_neg notLui, if_neg notAuipc, if_neg notJal, if_neg notJalr]

/-! ### Execution of the fallback -/

theorem exec_unrecognized (s : State) : exec .unrecognized s = .next s := rfl

/-- A step on an unrecognised word is the sequencer's two actions alone. -/
theorem stepWord_of_unrecognized {w : Word} (decoded : decode w = .unrecognized) (s : State) :
    stepWord w s = .next s.stage.commit :=
  stepWord_of_exec (by rw [decoded, exec_unrecognized])

theorem sameImage_commit_stage (s : State) : SameImage s s.stage.commit := ⟨rfl, fun _ => rfl⟩

theorem format_unrecognized : format .unrecognized = params.unrecognizedText := String.ofList_toList

/-- Settles O24: execution answers its own state, so a step is stage and commit, which write pc and npc alone. -/
theorem unrecognizedChangesNothing : Obligations.UnrecognizedChangesNothing := by
  refine ⟨exec_unrecognized, decodeWith_eq_unrecognized_iff params, fun w s decoded => ?step, ?sample,
    format_unrecognized⟩
  case step =>
    exact ⟨s.stage.commit, stepWord_of_unrecognized decoded s, commit_pc_of_npc_kept rfl, rfl,
      sameImage_commit_stage s⟩
  case sample => decide

/-! ### No text is empty -/

/-- The space after the mnemonic is always there (R121). -/
theorem instrText_ne_nil (mnemonic : Text) (operands : List Text) : instrText mnemonic operands ≠ [] :=
  List.append_ne_nil_of_right_ne_nil mnemonic (List.cons_ne_nil ' ' _)

/-- The placeholder is the only text that a configuration could leave empty. -/
theorem formatText_ne_nil {c : Config} (placeholder : c.unrecognizedText.toList ≠ []) (i : Instr) :
    formatText c i ≠ [] := by
  cases i with
  | lui rd imm => exact instrText_ne_nil _ _
  | auipc rd imm => exact instrText_ne_nil _ _
  | jal rd imm => rw [formatText]; split <;> exact instrText_ne_nil _ _
  | jalr rd rs1 imm => rw [formatText]; split <;> exact instrText_ne_nil _ _
  | unrecognized => exact placeholder

theorem format_ne_empty (i : Instr) : format i ≠ "" := by
  have placeholder : params.unrecognizedText.toList ≠ [] := by decide
  exact mt String.ofList_eq_empty_iff.mp (formatText_ne_nil placeholder i)

/-- Settles O30: every execute step has the shape `exec_shape`, which ends in a next state, and no text is empty. -/
theorem pipelineIsTotal : Obligations.PipelineIsTotal := by
  intro w s
  obtain ⟨n, rd, v, run⟩ := exec_shape (decode w) s
  exact ⟨decode w, _, format (decode w), rfl, run, rfl, format_ne_empty (decode w)⟩

end Sys2Proof.Machine
end

section
/-! The round trip of decode and encode: what each recognised Op says about its word, both compositions, and the ranges
of decoded operands (30_encoding.md R64, R69, R71, R74). -/

namespace Sys2Proof.Machine

/-! ### Decode after encode -/

/-- A word that fits in `n` bits is the zero extension of its low `n` bits. -/
theorem setWidth_setWidth_of_fits {n : Nat} (le : n ≤ 32) {imm : Word} (fits : imm.toNat < 2 ^ n) :
    (imm.setWidth n).setWidth 32 = imm := by
  apply BitVec.eq_of_toNat_eq
  rw [BitVec.toNat_setWidth_of_le le, BitVec.toNat_setWidth, Nat.mod_eq_of_lt fits]

/-- Each format gives back the fields it was built from, so the opcode selects the Op's own test. -/
theorem decodeWith_encodeWith {c : Config} (distinct : [c.opcLui, c.opcAuipc, c.opcJal, c.opcJalr].Nodup) {i : Instr}
    (ok : i.wf = true) (recognised : i ≠ .unrecognized) : decodeWith c (encodeWith c i) = i := by
  cases i with
  | lui rd imm =>
    obtain ⟨opc, hrd, himm⟩ := encodeU_fields c.opcLui rd imm
    rw [encodeWith, decodeWith_of_opcLui opc, hrd, himm,
      setWidth_setWidth_of_fits (by decide) ((uImmOk_iff imm).mp ok)]
  | auipc rd imm =>
    obtain ⟨opc, hrd, himm⟩ := encodeU_fields c.opcAuipc rd imm
    rw [encodeWith, decodeWith_of_opcAuipc distinct opc, hrd, himm,
      setWidth_setWidth_of_fits (by decide) ((uImmOk_iff imm).mp ok)]
  | jal rd imm =>
    obtain ⟨low, high, even⟩ := (jImmOk_iff imm).mp ok
    obtain ⟨opc, hrd, _⟩ := encodeJ_fields c.opcJal rd imm
    rw [encodeWith, decodeWith_of_opcJal distinct opc, hrd, jRaw_encodeJ _ _ even,
      signExtend_setWidth_of_fits (by decide) (by omega) (by omega)]
  | jalr rd rs1 imm =>
    obtain ⟨low, high⟩ := (iImmOk_iff imm).mp ok
    obtain ⟨opc, hrd, funct3, hrs1, himm⟩ := encodeI_fields c.opcJalr c.funct3Jalr rd rs1 imm
    rw [encodeWith, decodeWith_of_opcJalr distinct opc funct3, hrd, hrs1, himm,
      signExtend_setWidth_of_fits (by decide) (by omega) (by omega)]
  | unrecognized => exact absurd rfl recognised

/-- Settles O18: an encoded word passes the test of its own variant and, the opcodes being distinct, no earlier one. -/
theorem roundTripForAnyDistinctOpcodes : Obligations.RoundTripForAnyDistinctOpcodes :=
  fun _ _ distinct ok recognised => decodeWith_encodeWith distinct ok recognised

/-- Settles O16: the round trip for the opcodes of this hardware, and the one word of the fallback. -/
theorem decodeAfterEncodeIsIdentity : Obligations.DecodeAfterEncodeIsIdentity := by
  intro i ok
  by_cases fallback : i = .unrecognized
  · subst fallback
    decide
  · exact decodeWith_encodeWith params_opcodes_nodup ok fallback

/-! ### What a decoded Op says about its word -/

/-- R69 read backwards: the fields of a word that decodes to a given Op. -/
inductive DecodesTo (c : Config) (w : Word) : Instr → Prop where
  | lui (opc : w.extractLsb' 0 7 = c.opcLui) :
      DecodesTo c w (.lui (w.extractLsb' 7 5) ((w.extractLsb' 12 20).setWidth 32))
  | auipc (opc : w.extractLsb' 0 7 = c.opcAuipc) :
      DecodesTo c w (.auipc (w.extractLsb' 7 5) ((w.extractLsb' 12 20).setWidth 32))
  | jal (opc : w.extractLsb' 0 7 = c.opcJal) : DecodesTo c w (.jal (w.extractLsb' 7 5) ((jRaw w).signExtend 32))
  | jalr (opc : w.extractLsb' 0 7 = c.opcJalr) (funct3 : w.extractLsb' 12 3 = c.funct3Jalr) :
      DecodesTo c w (.jalr (w.extractLsb' 7 5) (w.extractLsb' 15 5) ((w.extractLsb' 20 12).signExtend 32))
  | unrecognized : DecodesTo c w .unrecognized

theorem decodesTo_decodeWith (c : Config) (w : Word) : DecodesTo c w (decodeWith c w) := by
  rw [decodeWith]
  simp only [opcodeField_eq_slice, funct3Field_eq_slice, regField_eq_slice, uImmediate_eq_slice, jImmediate_eq_jRaw,
    iImmediate_eq_slice]
  split_ifs with lui auipc jal jalr
  · exact .lui lui
  · exact .auipc auipc
  · exact .jal jal
  · exact .jalr jalr.1 jalr.2
  · exact .unrecognized

theorem decodesTo_of_decode {w : Word} {i : Instr} (decoded : decode w = i) : DecodesTo params w i :=
  decoded ▸ decodesTo_decodeWith params w

/-- Settles O15: each decoded immediate is the extension of a field, so it lies in the field's range. -/
theorem decodedOpsAreWellFormed : Obligations.DecodedOpsAreWellFormed := by
  intro w
  generalize decoded : decode w = i
  cases decodesTo_of_decode decoded with
  | lui | auipc => exact uImmOk_setWidth _
  | jal => exact jImmOk_jRaw w
  | jalr => exact iImmOk_signExtend _
  | unrecognized => rfl

/-! ### Encode after decode -/

/-- The fields of a U-type word cover it. -/
theorem encodeU_slices (w : Word) :
    encodeU (w.extractLsb' 0 7) (w.extractLsb' 7 5) ((w.extractLsb' 12 20).setWidth 32) = w := by
  unfold encodeU
  ext k hk
  simp only [← BitVec.getLsbD_eq_getElem, BitVec.getLsbD_append, BitVec.getLsbD_extractLsb', BitVec.getLsbD_setWidth]
  interval_cases k <;> simp

/-- The fields of a J-type word cover it: `encodeJ` scatters the bits that `jRaw` gathers. -/
theorem encodeJ_slices (w : Word) :
    encodeJ (w.extractLsb' 0 7) (w.extractLsb' 7 5) ((jRaw w).signExtend 32) = w := by
  unfold encodeJ jRaw
  ext k hk
  simp only [← BitVec.getLsbD_eq_getElem, BitVec.getLsbD_append, BitVec.getLsbD_extractLsb', BitVec.getLsbD_signExtend]
  interval_cases k <;> simp

/-- The fields of an I-type word cover it. -/
theorem encodeI_slices (w : Word) :
    encodeI (w.extractLsb' 0 7) (w.extractLsb' 12 3) (w.extractLsb' 7 5) (w.extractLsb' 15 5)
      ((w.extractLsb' 20 12).signExtend 32) = w := by
  unfold encodeI
  ext k hk
  simp only [← BitVec.getLsbD_eq_getElem, BitVec.getLsbD_append, BitVec.getLsbD_extractLsb', BitVec.getLsbD_setWidth,
    BitVec.getLsbD_signExtend]
  interval_cases k <;> simp

/-- Settles O17: the Op keeps every field of its format, and the format's fields cover the word. -/
theorem encodeAfterDecodeGivesWordBack : Obligations.EncodeAfterDecodeGivesWordBack := by
  intro w recognised
  generalize decoded : decode w = i at recognised ⊢
  cases decodesTo_of_decode decoded with
  | lui opc | auipc opc => rw [encode, encodeWith, ← opc, encodeU_slices]
  | jal opc => rw [encode, encodeWith, ← opc, encodeJ_slices]
  | jalr opc funct3 => rw [encode, encodeWith, ← opc, ← funct3, encodeI_slices]
  | unrecognized => exact absurd rfl recognised

end Sys2Proof.Machine
end

section
/-! The opcode map: which words belong to which variant, by opcode and by mask and match, how many there are of each,
and the classes that the fallback takes (30_encoding.md R70 to R72; 20_memory.md R42, R43). -/

namespace Sys2Proof.Machine

/-! ### The variant of a word by its opcode -/

theorem variant_eq_lui_iff {i : Instr} : i.variant = .lui ↔ ∃ rd imm, i = .lui rd imm := by
  cases i <;> simp [Instr.variant]

theorem variant_eq_auipc_iff {i : Instr} : i.variant = .auipc ↔ ∃ rd imm, i = .auipc rd imm := by
  cases i <;> simp [Instr.variant]

theorem variant_eq_jal_iff {i : Instr} : i.variant = .jal ↔ ∃ rd imm, i = .jal rd imm := by
  cases i <;> simp [Instr.variant]

theorem variant_eq_jalr_iff {i : Instr} : i.variant = .jalr ↔ ∃ rd rs1 imm, i = .jalr rd rs1 imm := by
  cases i <;> simp [Instr.variant]

theorem variant_eq_unrecognized_iff {i : Instr} : i.variant = .unrecognized ↔ i = .unrecognized := by
  cases i <;> simp [Instr.variant]

theorem decode_variant_lui_iff (w : Word) : (decode w).variant = .lui ↔ w.extractLsb' 0 7 = params.opcLui := by
  refine ⟨fun variant => ?_, fun opc => by rw [decode, decodeWith_of_opcLui opc]; rfl⟩
  obtain ⟨rd, imm, decoded⟩ := variant_eq_lui_iff.mp variant
  cases decodesTo_of_decode decoded with | lui opc => exact opc

theorem decode_variant_auipc_iff (w : Word) :
    (decode w).variant = .auipc ↔ w.extractLsb' 0 7 = params.opcAuipc := by
  refine ⟨fun variant => ?_, fun opc => by rw [decode, decodeWith_of_opcAuipc params_opcodes_nodup opc]; rfl⟩
  obtain ⟨rd, imm, decoded⟩ := variant_eq_auipc_iff.mp variant
  cases decodesTo_of_decode decoded with | auipc opc => exact opc

theorem decode_variant_jal_iff (w : Word) : (decode w).variant = .jal ↔ w.extractLsb' 0 7 = params.opcJal := by
  refine ⟨fun variant => ?_, fun opc => by rw [decode, decodeWith_of_opcJal params_opcodes_nodup opc]; rfl⟩
  obtain ⟨rd, imm, decoded⟩ := variant_eq_jal_iff.mp variant
  cases decodesTo_of_decode decoded with | jal opc => exact opc

theorem decode_variant_jalr_iff (w : Word) :
    (decode w).variant = .jalr ↔ w.extractLsb' 0 7 = params.opcJalr ∧ w.extractLsb' 12 3 = params.funct3Jalr := by
  refine ⟨fun variant => ?_, fun ⟨opc, funct3⟩ => by
    rw [decode, decodeWith_of_opcJalr params_opcodes_nodup opc funct3]; rfl⟩
  obtain ⟨rd, rs1, imm, decoded⟩ := variant_eq_jalr_iff.mp variant
  cases decodesTo_of_decode decoded with | jalr opc funct3 => exact ⟨opc, funct3⟩

/-! ### The variant of a word by mask and match -/

/-- A mask that is all ones over a slice lets the match value decide the slice. -/
theorem slice_of_masked {w mask value : Word} {lsb width : Nat} {field : BitVec width} (row : w &&& mask = value)
    (ones : mask.extractLsb' lsb width = BitVec.allOnes width) (matched : value.extractLsb' lsb width = field) :
    w.extractLsb' lsb width = field := by
  rw [← matched, ← row, BitVec.extractLsb'_and, ones, BitVec.and_allOnes]

/-- Every word matches the row it decodes to: it is its Op's encoding, which matches its row. -/
theorem decode_matches_row (w : Word) : w &&& rowMask (decode w) = rowMatch (decode w) := by
  by_cases fallback : decode w = .unrecognized
  · rw [fallback]
    exact BitVec.and_zero
  · have row : encode (decode w) &&& rowMask (decode w) = rowMatch (decode w) := by
      cases decode w with
      | lui rd imm => exact Laws.EncodeMatchesRow.lui rd imm
      | auipc rd imm => exact Laws.EncodeMatchesRow.auipc rd imm
      | jal rd imm => exact Laws.EncodeMatchesRow.jal rd imm
      | jalr rd rs1 imm => exact Laws.EncodeMatchesRow.jalr rd rs1 imm
      | unrecognized => exact Laws.EncodeMatchesRow.unrecognized
    rwa [encodeAfterDecodeGivesWordBack w fallback] at row

/-- A row is that of its variant. -/
theorem row_eq_of_variant_eq {i j : Instr} (variant : i.variant = j.variant) :
    rowMask i = rowMask j ∧ rowMatch i = rowMatch j := by
  cases i <;> cases j <;> cases variant <;> exact ⟨rfl, rfl⟩

/-- The mask of a row selects the opcode, and for JALR funct3, that the Decoder tests. -/
theorem matches_row_iff (w : Word) {i : Instr} (recognised : i ≠ .unrecognized) :
    w &&& rowMask i = rowMatch i ↔ (decode w).variant = i.variant := by
  constructor
  · intro row
    cases i with
    | lui rd imm =>
      have row : w &&& 0x0000007F#32 = 0x00000037#32 := row
      exact (decode_variant_lui_iff w).mpr (slice_of_masked row (by decide) (by decide))
    | auipc rd imm =>
      have row : w &&& 0x0000007F#32 = 0x00000017#32 := row
      exact (decode_variant_auipc_iff w).mpr (slice_of_masked row (by decide) (by decide))
    | jal rd imm =>
      have row : w &&& 0x0000007F#32 = 0x0000006F#32 := row
      exact (decode_variant_jal_iff w).mpr (slice_of_masked row (by decide) (by decide))
    | jalr rd rs1 imm =>
      have row : w &&& 0x0000707F#32 = 0x00000067#32 := row
      exact (decode_variant_jalr_iff w).mpr
        ⟨slice_of_masked row (by decide) (by decide), slice_of_masked row (by decide) (by decide)⟩
    | unrecognized => exact absurd rfl recognised
  · intro variant
    obtain ⟨mask, value⟩ := row_eq_of_variant_eq variant
    rw [← mask, ← value, decode_matches_row]

/-- Settles O12: both rows have the one variant that the word decodes to. -/
theorem opcodeRowsAreDisjoint : Obligations.OpcodeRowsAreDisjoint := by
  intro w i hi rowI
  have variantI := (matches_row_iff w hi).mp rowI
  exact ⟨variantI, fun j hj rowJ => variantI.symm.trans ((matches_row_iff w hj).mp rowJ)⟩

/-- Settles O11: a row is matched exactly by the words of its variant, and the fallback is what the four leave. -/
theorem decodeFollowsMaskAndMatch : Obligations.DecodeFollowsMaskAndMatch := by
  intro w
  have lui := matches_row_iff w (i := .lui 0 0) (by decide)
  have auipc := matches_row_iff w (i := .auipc 0 0) (by decide)
  have jal := matches_row_iff w (i := .jal 0 0) (by decide)
  have jalr := matches_row_iff w (i := .jalr 0 0 0) (by decide)
  have fallback : decode w = .unrecognized ↔ (decode w).variant ≠ .lui ∧ (decode w).variant ≠ .auipc ∧
      (decode w).variant ≠ .jal ∧ (decode w).variant ≠ .jalr := by
    cases decode w <;> simp [Instr.variant]
  exact ⟨lui.trans variant_eq_lui_iff, auipc.trans variant_eq_auipc_iff, jal.trans variant_eq_jal_iff,
    jalr.trans variant_eq_jalr_iff,
    fallback.trans (and_congr lui.not.symm (and_congr auipc.not.symm (and_congr jal.not.symm jalr.not.symm)))⟩

/-! ### The number of words of each variant -/

/-- An opcode leaves the 25 bits above it free. -/
def wordsOfOpcode (opc : BitVec 7) : { w : Word // w.extractLsb' 0 7 = opc } ≃ BitVec 25 where
  toFun w := w.val.extractLsb' 7 25
  invFun high := ⟨(high ++ opc : BitVec (25 + 7)), BitVec.extractLsb'_append_eq_right⟩
  left_inv := by
    rintro ⟨w, rfl⟩
    exact Subtype.ext (BitVec.extractLsb'_append_extractLsb' (w := 25) (len := 7) (x := w))
  right_inv _ := BitVec.extractLsb'_append_eq_left

theorem setWidth_signExtend_of_le {n : Nat} (le : n ≤ 32) (b : BitVec n) : (b.signExtend 32).setWidth n = b := by
  ext k hk
  rw [BitVec.getElem_setWidth, BitVec.getLsbD_signExtend, if_pos hk, BitVec.getLsbD_eq_getElem hk,
    decide_eq_true (hk.trans_le le), Bool.true_and]

/-- An opcode and funct3 leave the other three fields of R64's I-type free. -/
def wordsOfOpcodeFunct3 (opc : BitVec 7) (funct3 : BitVec 3) :
    { w : Word // w.extractLsb' 0 7 = opc ∧ w.extractLsb' 12 3 = funct3 } ≃ RegIdx × RegIdx × BitVec 12 where
  toFun w := (w.val.extractLsb' 7 5, w.val.extractLsb' 15 5, w.val.extractLsb' 20 12)
  invFun := fun (rd, rs1, imm) =>
    ⟨encodeI opc funct3 rd rs1 (imm.signExtend 32), by
      obtain ⟨hopc, _, hfunct3, _⟩ := encodeI_fields opc funct3 rd rs1 (imm.signExtend 32)
      exact ⟨hopc, hfunct3⟩⟩
  left_inv := by
    rintro ⟨w, rfl, rfl⟩
    exact Subtype.ext (encodeI_slices w)
  right_inv := by
    rintro ⟨rd, rs1, imm⟩
    obtain ⟨_, hrd, _, hrs1, himm⟩ := encodeI_fields opc funct3 rd rs1 (imm.signExtend 32)
    exact Prod.ext hrd (Prod.ext hrs1 (himm.trans (setWidth_signExtend_of_le (by decide) imm)))

theorem card_bitVec (n : Nat) : Nat.card (BitVec n) = 2 ^ n := by
  rw [Nat.card_eq_fintype_card, ← FinEnum.card_eq_fintypeCard, FinEnum.card_bitVec]

/-- Every word is of exactly one variant. -/
theorem card_words_by_variant :
    ∑ v ∈ ({.lui, .auipc, .jal, .jalr, .unrecognized} : Finset Variant),
      Nat.card { w : Word // (decode w).variant = v } = 2 ^ 32 := by
  have listed (w : Word) (_ : w ∈ Finset.univ) :
      (decode w).variant ∈ ({.lui, .auipc, .jal, .jalr, .unrecognized} : Finset Variant) := by
    cases (decode w).variant <;> decide
  rw [← card_bitVec, Nat.card_eq_fintype_card, ← Finset.card_univ, Finset.card_eq_sum_card_fiberwise listed]
  refine Finset.sum_congr rfl fun v _ => ?_
  rw [Nat.card_eq_fintype_card, Fintype.card_subtype]

/-- Settles O13: the four patterns leave 25 or 22 bits free, and the fallback has the words that are left. -/
theorem rowsHaveTheStatedNumberOfWords : Obligations.RowsHaveTheStatedNumberOfWords := by
  have lui : Nat.card { w : Word // (decode w).variant = .lui } = 2 ^ 25 := by
    simp only [decode_variant_lui_iff, Nat.card_congr (wordsOfOpcode _), card_bitVec]
  have auipc : Nat.card { w : Word // (decode w).variant = .auipc } = 2 ^ 25 := by
    simp only [decode_variant_auipc_iff, Nat.card_congr (wordsOfOpcode _), card_bitVec]
  have jal : Nat.card { w : Word // (decode w).variant = .jal } = 2 ^ 25 := by
    simp only [decode_variant_jal_iff, Nat.card_congr (wordsOfOpcode _), card_bitVec]
  have jalr : Nat.card { w : Word // (decode w).variant = .jalr } = 2 ^ 22 := by
    simp only [decode_variant_jalr_iff, Nat.card_congr (wordsOfOpcodeFunct3 _ _), Nat.card_prod, card_bitVec]
    norm_num
  have total := card_words_by_variant
  rw [Finset.sum_insert (by decide), Finset.sum_insert (by decide), Finset.sum_insert (by decide),
    Finset.sum_insert (by decide), Finset.sum_singleton, lui, auipc, jal, jalr] at total
  simp only [Obligations.RowsHaveTheStatedNumberOfWords, ← variant_eq_lui_iff, ← variant_eq_auipc_iff,
    ← variant_eq_jal_iff, ← variant_eq_jalr_iff, ← variant_eq_unrecognized_iff]
  exact ⟨lui, auipc, jal, jalr, by omega⟩

/-! ### The words that the fallback takes -/

/-- R72: a word whose opcode is none of the four fails every test. -/
theorem decode_of_opcode_not_listed {w : Word}
    (other : w.extractLsb' 0 7 ∉ [params.opcLui, params.opcAuipc, params.opcJal, params.opcJalr]) :
    decode w = .unrecognized := by
  simp only [List.mem_cons, List.not_mem_nil, or_false, not_or] at other
  obtain ⟨notLui, notAuipc, notJal, notJalr⟩ := other
  exact (decodeWith_eq_unrecognized_iff params w).mpr ⟨notLui, notAuipc, notJal, not_and_of_not_left _ notJalr⟩

/-- Bits 1:0 of a word are those of its opcode. -/
theorem low_bits_of_opcode (w : Word) : (w.extractLsb' 0 7).extractLsb' 0 2 = w.extractLsb' 0 2 :=
  BitVec.extractLsb'_extractLsb'_of_le (by decide)

/-- Settles O14: each class but the all-ones word and the other funct3 values has no listed opcode. -/
theorem otherWordsAreUnrecognized : Obligations.OtherWordsAreUnrecognized := by
  intro w
  refine ⟨fun low => ?lowBits, fun ones => ?allOnes, fun opc funct3 => ?otherFunct3, fun family => ?families,
    decode_of_opcode_not_listed⟩
  case lowBits =>
    have listed_low : ∀ opc ∈ [params.opcLui, params.opcAuipc, params.opcJal, params.opcJalr],
        opc.extractLsb' 0 2 = 0b11#2 := by decide
    exact decode_of_opcode_not_listed fun listed => low (low_bits_of_opcode w ▸ listed_low _ listed)
  case allOnes =>
    subst ones
    decide
  case otherFunct3 => exact decodeWith_of_opcJalr_of_funct3_ne params_opcodes_nodup opc funct3
  case families =>
    have families_not_listed : ∀ opc ∈ [0b1100011#7, 0b0000011#7, 0b0100011#7, 0b0010011#7, 0b0110011#7, 0b0001111#7,
        0b1110011#7, 0b0101111#7], opc ∉ [params.opcLui, params.opcAuipc, params.opcJal, params.opcJalr] := by decide
    exact decode_of_opcode_not_listed (families_not_listed _ family)

/-! ### Words given as bytes, and the spec's own words -/

/-- Settles O7: four bytes meet the first equation of `decodeBytes`, fewer the second. -/
theorem decodeBytesTakesFourBytes : Obligations.DecodeBytesTakesFourBytes := by
  refine ⟨fun b0 b1 b2 b3 rest => ⟨wordOfBytes b0 b1 b2 b3, wordOfBytes_toNat b0 b1 b2 b3, rfl⟩, fun bs short => ?_⟩
  match bs with
  | [] | [_] | [_, _] | [_, _, _] => rfl
  | _ :: _ :: _ :: _ :: rest => exact absurd short (by simp)

/-- Settles O19: each word is evaluated. -/
theorem specWordsDecodeAsStated : Obligations.SpecWordsDecodeAsStated := by
  unfold Obligations.SpecWordsDecodeAsStated
  decide

end Sys2Proof.Machine
end

section
/-! Steps and runs: everything a step can do, and from it the invariant, the fixed FETCH, and the one reason to stop
(10_state.md R24, R30; 20_memory.md R47, R50; 60_exceptions.md R140; 70_reset_and_hazards.md R170). -/

namespace Sys2Proof.Machine

/-! ### What a step can do -/

/-- A step stops where FETCH has no word; elsewhere it stages, sets npc, writes at most one register and commits. -/
theorem step_shape (s : State) :
    (s.fetch s.pc = none ∧ step s = .fault .runOver) ∨
    ∃ w n rd v, s.fetch s.pc = some w ∧ step s = .next ((s.stage.setNpc n).writeReg rd v).commit := by
  cases fetched : s.fetch s.pc with
  | none => exact .inl ⟨rfl, step_of_no_word s fetched⟩
  | some w =>
    obtain ⟨n, rd, v, run⟩ := stepWord_shape w s
    exact .inr ⟨w, n, rd, v, rfl, (step_of_fetch s w fetched).trans run⟩

theorem step_next_shape {s t : State} (run : step s = .next t) :
    ∃ n rd v, t = ((s.stage.setNpc n).writeReg rd v).commit := by
  obtain ⟨_, stops⟩ | ⟨_, n, rd, v, _, goes⟩ := step_shape s
  · cases stops.symm.trans run
  · cases goes.symm.trans run
    exact ⟨n, rd, v, rfl⟩

theorem step_next_cell_zero {s t : State} (run : step s = .next t) : t.x[0] = s.x[0] := by
  obtain ⟨n, rd, v, rfl⟩ := step_next_shape run
  exact State.writeReg_cell_zero (s.stage.setNpc n) rd v

theorem step_next_imageBase {s t : State} (run : step s = .next t) : t.imageBase = s.imageBase := by
  obtain ⟨n, rd, v, rfl⟩ := step_next_shape run
  exact State.writeReg_imageBase (s.stage.setNpc n) rd v

theorem step_next_image {s t : State} (run : step s = .next t) : t.image = s.image := by
  obtain ⟨n, rd, v, rfl⟩ := step_next_shape run
  exact State.writeReg_image (s.stage.setNpc n) rd v

/-- Settles O46: a step leaves cell 0 and the image as they are. -/
theorem stepKeepsTheInvariant : Obligations.StepKeepsTheInvariant := by
  rintro s t ⟨zero, canonical⟩ run
  exact ⟨(step_next_cell_zero run).trans zero, by rw [step_next_image run, canonical]⟩

/-- Settles O35: the two cases of `step_shape`. -/
theorem stepStopsExactlyWhereNoWord : Obligations.StepStopsExactlyWhereNoWord := by
  intro s
  refine ⟨step_of_no_word s, fun canStep => ?_⟩
  obtain ⟨noWord, _⟩ | ⟨_, _, _, _, _, goes⟩ := step_shape s
  · simp [CanStep, noWord] at canStep
  · exact ⟨_, goes⟩

/-- Settles O36: a word gives the step of that word, and its commit copies npc to pc. -/
theorem stepUnderAnyFetch : Obligations.StepUnderAnyFetch := by
  intro fetch s
  refine ⟨fun noWord => by rw [stepWith, noWord], fun w fetched => ?_⟩
  obtain ⟨n, rd, v, run⟩ := stepWord_shape w s
  have goes : stepWith fetch s = stepWord w s := by rw [stepWith, fetched]
  exact ⟨_, goes.trans run, run, rfl⟩

/-! ### Runs -/

/-- A run of `k + 1` steps that goes on is a step that goes on and a run of `k` steps. -/
theorem run_succ_next {k : Nat} {s t : State} (run : core.run (k + 1) s = .next t) :
    ∃ u, step s = .next u ∧ core.run k u = .next t := by
  obtain ⟨_, stops⟩ | ⟨_, _, _, _, _, goes⟩ := step_shape s
  · cases (run_succ_of_fault k _ stops).symm.trans run
  · exact ⟨_, goes, (run_succ_of_next k goes).symm.trans run⟩

/-- What every step keeps, every run keeps. -/
theorem run_keeps {α : Type} (f : State → α) (step_keeps : ∀ {s t}, step s = .next t → f t = f s) :
    ∀ {k s t}, core.run k s = .next t → f t = f s := by
  intro k
  induction k with
  | zero =>
    intro s t run
    cases run
    rfl
  | succ k ih =>
    intro s t run
    obtain ⟨u, first, rest⟩ := run_succ_next run
    exact (ih rest).trans (step_keeps first)

/-- Settles O47: FETCH reads the base and the image alone, and no step writes either. -/
theorem runsNeverChangeFetch : Obligations.RunsNeverChangeFetch := by
  intro k s t run
  have base : t.imageBase = s.imageBase := run_keeps State.imageBase step_next_imageBase run
  have image : t.image = s.image := run_keeps State.image step_next_image run
  exact ⟨⟨base, fun a => by rw [image]⟩, fun a => by rw [State.fetch, State.fetch, base, image]⟩

/-- Settles O48: by induction on the number of steps; a run that stops does so at its first step or later. -/
theorem runsStopOnlyWhereNoWord : Obligations.RunsStopOnlyWhereNoWord := by
  intro k
  induction k with
  | zero => exact fun s => .inl ⟨s, rfl⟩
  | succ k ih =>
    intro s
    obtain ⟨noWord, stops⟩ | ⟨_, _, _, _, _, goes⟩ := step_shape s
    · exact .inr ⟨0, s, Nat.succ_pos k, rfl, noWord, run_succ_of_fault k _ stops⟩
    · rw [run_succ_of_next k goes]
      obtain on | ⟨j, t, before, reached, noWord, stops⟩ := ih _
      · exact .inl on
      · exact .inr ⟨j + 1, t, Nat.succ_lt_succ before, (run_succ_of_next j goes).trans reached, noWord, stops⟩

end Sys2Proof.Machine
end

section
/-! Executing one Op: what each variant answers, its frame, what it reads, and the parameters of R92 and R103
(10_state.md R22 to R31; 40_upper_immediate.md R91, R92; 41_jumps.md R100 to R103). -/

namespace Sys2Proof.Machine

/-! ### AUIPC and JAL -/

theorem exec_auipc (rd : RegIdx) (imm : Word) (s : State) :
    exec (.auipc rd imm) s = .next (s.writeReg rd (s.pc + imm)) :=
  calc exec (.auipc rd imm) s
      = .next (s.writeReg rd (s.pc + uOperand params imm)) := rfl
    _ = .next (s.writeReg rd (s.pc + imm)) := by rw [uOperand_params]

/-- Settles O21: AUIPC is one register write, so its frame is that of `writeReg`, and npc stays as staged. -/
theorem auipcAddsRawImmediateToPc : Obligations.AuipcAddsRawImmediateToPc := by
  refine ⟨fun rd imm s => ?frame, fun rd imm fits => ?word, fun w s rd imm decoded => ?nextPc⟩
  case frame =>
    have zero : rd = 0 → s.writeReg rd (s.pc + imm) = s := by
      rintro rfl
      exact s.writeReg_zero (s.pc + imm)
    exact ⟨_, exec_auipc rd imm s, regsAre_writeReg s rd _, s.writeReg_pc rd _, s.writeReg_npc rd _,
      sameImage_writeReg s rd _, zero⟩
  case word => exact encodeU_toNat params.opcAuipc rd (Nat.lt_succ_of_le fits)
  case nextPc =>
    have run : exec (decode w) s.stage = .next (s.stage.writeReg rd (s.pc + imm)) := by
      rw [decoded, exec_auipc, s.stage_pc]
    exact ⟨_, stepWord_of_exec run, commit_pc_of_npc_kept (s.stage.writeReg_npc rd _)⟩

/-- Settles O22: JAL is a write of npc and a write of `rd` with the npc read at entry. -/
theorem jalLinksEntryNpcAndJumps : Obligations.JalLinksEntryNpcAndJumps := by
  intro rd imm s
  exact ⟨_, exec_jal rd imm s, s.afterJump_npc rd _ _, regsAre_afterJump s rd _ _, s.afterJump_pc rd _ _,
    sameImage_afterJump s rd _ _⟩

/-! ### Jump targets -/

/-- Bit 0 of a sum with an even number. -/
theorem getLsbD_zero_add_of_even (pc : Word) {imm : Word} (even : imm.getLsbD 0 = false) :
    (pc + imm).getLsbD 0 = pc.getLsbD 0 := by
  rw [BitVec.getLsbD_add (by decide), BitVec.carry_zero, even, Bool.xor_false, Bool.xor_false]

/-- Settles O26: JALR takes the sum as it is, and the immediate of a decoded JAL is even. -/
theorem jumpTargetsAreNotChecked : Obligations.JumpTargetsAreNotChecked := by
  refine ⟨fun target rd rs1 imm s base => ?anyTarget, fun w rd imm s decoded => ?parity⟩
  case anyTarget =>
    refine ⟨_, exec_jalr rd rs1 imm s, ?_⟩
    rw [s.afterJump_npc, jalrTarget_params, base, BitVec.sub_add_cancel]
  case parity =>
    have ok := decodedOpsAreWellFormed w
    rw [decoded] at ok
    obtain ⟨_, _, even⟩ := (jImmOk_iff imm).mp ok
    refine ⟨_, exec_jal rd imm s, ?_⟩
    rw [s.afterJump_npc]
    exact getLsbD_zero_add_of_even s.pc even

/-- The mask of R103 clears bit 0 alone. -/
theorem getLsbD_clear_bit_zero (v : Word) (k : Nat) :
    (v &&& 0xFFFFFFFE#32).getLsbD k = if k = 0 then false else v.getLsbD k := by
  have mask : (0xFFFFFFFE#32 : Word) = ~~~1#32 := rfl
  rw [mask, BitVec.getLsbD_and, BitVec.getLsbD_not, BitVec.getLsbD_one]
  by_cases inside : k < 32
  · by_cases zero : k = 0 <;> simp [inside, zero]
  · simp [BitVec.getLsbD_of_ge v k (Nat.le_of_not_lt inside)]

theorem jalrTarget_getLsbD (c : Config) (src1 imm : Word) (k : Nat) :
    (jalrTarget c src1 imm).getLsbD k = if c.jalrClearBit0 = true ∧ k = 0 then false else (src1 + imm).getLsbD k := by
  rw [jalrTarget]
  by_cases clear : c.jalrClearBit0 = true
  · rw [if_pos clear, getLsbD_clear_bit_zero]
    simp only [clear, true_and]
  · rw [if_neg clear, if_neg (not_and_of_not_left _ clear)]

/-- JALR under any configuration: all reads are of the state at entry. -/
theorem execJalrWith_eq (c : Config) (rd rs1 : RegIdx) (imm : Word) (s : State) :
    execJalrWith c rd rs1 imm s = .next (s.afterJump rd (jalrTarget c (s.readReg rs1) imm) s.npc) := rfl

/-- Settles O28: the parameter reaches the target only, where it clears bit 0. -/
theorem jalrTargetUnderClearBit0 : Obligations.JalrTargetUnderClearBit0 := by
  refine ⟨rfl, fun c rd rs1 imm s => ⟨_, execJalrWith_eq c rd rs1 imm s, regsAre_afterJump s rd _ _, fun k => ?_⟩⟩
  rw [s.afterJump_npc, jalrTarget_getLsbD]

/-- Settles O29: the three sums are additions of 32-bit words. -/
theorem sumsWrapModulo : Obligations.SumsWrapModulo := by
  intro s imm r
  refine ⟨BitVec.toNat_add _ _, ?_, ?_⟩
  · rw [jalrTarget_params, BitVec.toNat_add]
  · rw [s.stage_npc_eq_pc_add_four, BitVec.toNat_add]
    rfl

/-! ### The U-type operand -/

theorem uOperand_toNat (c : Config) (imm : Word) : (uOperand c imm).toNat = imm.toNat * 2 ^ c.uShift % 2 ^ 32 := by
  rw [uOperand, BitVec.toNat_shiftLeft, Nat.shiftLeft_eq]

/-- Settles O27: under any U_SHIFT both instructions are one register write. -/
theorem uTypeOperandUnderAnyShift : Obligations.UTypeOperandUnderAnyShift := by
  refine ⟨rfl, fun c rd imm s => ⟨uOperand c imm, uOperand_toNat c imm, ?_⟩⟩
  have frame (v : Word) : ∃ t, (.next (s.writeReg rd v) : Host.Outcome State Fault Refusal) = .next t ∧
      RegsAre s t rd v ∧ t.pc = s.pc ∧ t.npc = s.npc ∧ SameImage s t :=
    ⟨_, rfl, regsAre_writeReg s rd v, s.writeReg_pc rd v, s.writeReg_npc rd v, sameImage_writeReg s rd v⟩
  exact ⟨frame (uOperand c imm), frame (s.pc + uOperand c imm)⟩

/-! ### The frame of any Op -/

/-- A register other than the written one reads as before. -/
theorem readReg_eq_of_regsAre {s t : State} {rd r : RegIdx} {v : Word} (regs : RegsAre s t rd v) (other : rd ≠ r) :
    t.readReg r = s.readReg r := by
  rw [regs r, if_neg (not_and_of_not_left _ other.symm)]

/-- What an Op leaves unchanged: pc, the image, npc unless it jumps, and every register but its destination. -/
theorem exec_frame (i : Instr) (s : State) : ∃ t, exec i s = .next t ∧ t.pc = s.pc ∧ SameImage s t ∧
    (i.isJump = false → t.npc = s.npc) ∧ ∀ r, i.dest ≠ some r → t.readReg r = s.readReg r := by
  have others {t : State} {rd : RegIdx} {v : Word} (regs : RegsAre s t rd v) (r : RegIdx) (other : some rd ≠ some r) :
      t.readReg r = s.readReg r :=
    readReg_eq_of_regsAre regs (ne_of_apply_ne some other)
  cases i with
  | lui rd imm =>
    exact ⟨_, exec_lui rd imm s, s.writeReg_pc rd _, sameImage_writeReg s rd _, fun _ => s.writeReg_npc rd _,
      others (regsAre_writeReg s rd _)⟩
  | auipc rd imm =>
    exact ⟨_, exec_auipc rd imm s, s.writeReg_pc rd _, sameImage_writeReg s rd _, fun _ => s.writeReg_npc rd _,
      others (regsAre_writeReg s rd _)⟩
  | jal rd imm =>
    exact ⟨_, exec_jal rd imm s, s.afterJump_pc rd _ _, sameImage_afterJump s rd _ _, nofun,
      others (regsAre_afterJump s rd _ _)⟩
  | jalr rd rs1 imm =>
    exact ⟨_, exec_jalr rd rs1 imm s, s.afterJump_pc rd _ _, sameImage_afterJump s rd _ _, nofun,
      others (regsAre_afterJump s rd _ _)⟩
  | unrecognized => exact ⟨s, exec_unrecognized s, rfl, ⟨rfl, fun _ => rfl⟩, fun _ => rfl, fun _ _ => rfl⟩

/-- Settles O31: part of the frame of an Op. -/
theorem executeNeverWritesPcOrImage : Obligations.ExecuteNeverWritesPcOrImage := by
  intro i s
  obtain ⟨t, run, pc, image, npc, _⟩ := exec_frame i s
  exact ⟨t, run, pc, image, npc⟩

/-- Settles O32: the registers of the frame; register 0 reads 0 in every state, so destination 0 changes none. -/
theorem executeWritesOnlyItsDestination : Obligations.ExecuteWritesOnlyItsDestination := by
  intro i s
  obtain ⟨t, run, _, _, _, others⟩ := exec_frame i s
  refine ⟨t, run, others, t.readReg_zero, fun dest r => ?_⟩
  by_cases zero : r = 0
  · rw [zero, t.readReg_zero, s.readReg_zero]
  · exact others r fun same => zero (Option.some.inj (same.symm.trans dest))

/-! ### What an Op reads -/

/-- A destination reads the same in two states that were written the same value. -/
theorem readReg_dest_eq {s s' t t' : State} {rd : RegIdx} {v : Word} (regs : RegsAre s t rd v)
    (regs' : RegsAre s' t' rd v) : t.readReg rd = t'.readReg rd := by
  by_cases zero : rd = 0
  · rw [zero, t.readReg_zero, t'.readReg_zero]
  · rw [readReg_of_regsAre regs zero, readReg_of_regsAre regs' zero]

/-- Two states agree on pc, npc and a destination register, if there is one. -/
def AgreeAfter (dest : Option RegIdx) (t t' : State) : Prop :=
  t.pc = t'.pc ∧ t.npc = t'.npc ∧ ∀ r, dest = some r → t.readReg r = t'.readReg r

theorem agreeAfter_writeReg {s s' : State} (pc : s.pc = s'.pc) (npc : s.npc = s'.npc) (rd : RegIdx) (v : Word) :
    AgreeAfter (some rd) (s.writeReg rd v) (s'.writeReg rd v) := by
  refine ⟨by simp only [State.writeReg_pc, pc], by simp only [State.writeReg_npc, npc], ?_⟩
  rintro _ ⟨⟩
  exact readReg_dest_eq (regsAre_writeReg s rd v) (regsAre_writeReg s' rd v)

/-- Both jumps write npc first, so the npc at entry need not agree for the target to. -/
theorem agreeAfter_afterJump {s s' : State} (pc : s.pc = s'.pc) (rd : RegIdx) (target link : Word) :
    AgreeAfter (some rd) (s.afterJump rd target link) (s'.afterJump rd target link) :=
  agreeAfter_writeReg (s := s.setNpc target) (s' := s'.setNpc target) pc rfl rd link

/-- Settles O33: the values written are functions of pc, npc and the source register. -/
theorem executeReadsOnlyItsSources : Obligations.ExecuteReadsOnlyItsSources := by
  intro i s s' pc npc sources
  cases i with
  | lui rd imm => exact ⟨_, _, exec_lui rd imm s, exec_lui rd imm s', agreeAfter_writeReg pc npc rd imm⟩
  | auipc rd imm =>
    have run' := exec_auipc rd imm s'
    rw [← pc] at run'
    exact ⟨_, _, exec_auipc rd imm s, run', agreeAfter_writeReg pc npc rd _⟩
  | jal rd imm =>
    have run' := exec_jal rd imm s'
    rw [← pc, ← npc] at run'
    exact ⟨_, _, exec_jal rd imm s, run', agreeAfter_afterJump pc rd _ _⟩
  | jalr rd rs1 imm =>
    have run' := exec_jalr rd rs1 imm s'
    rw [← npc, ← sources rs1 rfl] at run'
    exact ⟨_, _, exec_jalr rd rs1 imm s, run', agreeAfter_afterJump pc rd _ _⟩
  | unrecognized => exact ⟨s, s', rfl, rfl, pc, npc, nofun⟩

/-! ### The cell of register 0 -/

/-- `s` with another value in the cell of register 0, which no read sees. -/
abbrev State.setCellZero (s : State) (v : Word) : State := { s with x := s.x.set 0 v }

theorem State.setCellZero_readReg (s : State) (v : Word) (r : RegIdx) : (s.setCellZero v).readReg r = s.readReg r := by
  by_cases zero : r = 0
  · rw [zero, State.readReg_zero, State.readReg_zero]
  · have index : 0 ≠ r.toNat := fun h => zero (BitVec.eq_of_toNat_eq h.symm)
    rw [State.readReg, State.readReg, if_neg zero, if_neg zero]
    exact Vector.getElem_set_ne (by decide) r.isLt index

theorem State.setCellZero_writeReg (s : State) (v : Word) (rd : RegIdx) (u : Word) :
    (s.setCellZero v).writeReg rd u = (s.writeReg rd u).setCellZero v := by
  by_cases zero : rd = 0
  · rw [zero, State.writeReg_zero, State.writeReg_zero]
  · have index : 0 ≠ rd.toNat := fun h => zero (BitVec.eq_of_toNat_eq h.symm)
    rw [State.writeReg, State.writeReg, if_neg zero, if_neg zero, State.setCellZero, State.setCellZero,
      Vector.set_comm _ _ index]

/-- An execute step and a change of the cell commute. -/
theorem exec_setCellZero (i : Instr) (s : State) (v : Word) :
    ∃ t, exec i s = .next t ∧ exec i (s.setCellZero v) = .next (t.setCellZero v) := by
  cases i with
  | lui rd imm => exact ⟨_, exec_lui rd imm s, by rw [exec_lui, State.setCellZero_writeReg]⟩
  | auipc rd imm => exact ⟨_, exec_auipc rd imm s, by rw [exec_auipc, State.setCellZero_writeReg]⟩
  | jal rd imm =>
    exact ⟨_, exec_jal rd imm s, congrArg _ (State.setCellZero_writeReg (s.setNpc _) v rd _)⟩
  | jalr rd rs1 imm =>
    refine ⟨_, exec_jalr rd rs1 imm s, ?_⟩
    rw [exec_jalr, State.setCellZero_readReg]
    exact congrArg _ (State.setCellZero_writeReg (s.setNpc _) v rd _)
  | unrecognized => exact ⟨s, rfl, rfl⟩

/-- Settles O5: FETCH and the sequencer do not touch the registers, and execution commutes with a change of the cell. -/
theorem cellZeroIsNotObservable : Obligations.CellZeroIsNotObservable := by
  intro s v canStep
  obtain ⟨w, fetched⟩ := Option.isSome_iff_exists.mp canStep
  obtain ⟨t, run, run'⟩ := exec_setCellZero (decode w) s.stage v
  have first : step s = .next t.commit := (step_of_fetch s w fetched).trans (stepWord_of_exec run)
  have second : step (s.setCellZero v) = .next (t.setCellZero v).commit :=
    (step_of_fetch (s.setCellZero v) w fetched).trans (stepWord_of_exec run')
  exact ⟨t.commit, first, second⟩

end Sys2Proof.Machine
end

section
/-! FETCH and single steps: the default platform over a loaded image, a placed word, the step of each kind of Op, and
what reset and launch leave (20_memory.md R42, R47; 10_state.md R30, R37; 70_reset_and_hazards.md R160, R161). -/

namespace Sys2Proof.Machine

/-! ### Words of the image -/

theorem Memory.loadWord_of_reads {m : Memory} {a : Nat} {b0 b1 b2 b3 : Byte} (h0 : Memory.read m a = some b0)
    (h1 : Memory.read m (a + 1) = some b1) (h2 : Memory.read m (a + 2) = some b2)
    (h3 : Memory.read m (a + 3) = some b3) : Memory.loadWord m a = some (wordOfBytes b0 b1 b2 b3) := by
  rw [Memory.loadWord, h0, h1, h2, h3]

theorem Memory.loadWord_of_last_missing {m : Memory} {a : Nat} (missing : Memory.read m (a + 3) = none) :
    Memory.loadWord m a = none := by
  rw [Memory.loadWord, missing]
  split
  case h_1 last => cases last
  case h_2 => rfl

/-- Word `q` of a loaded image stands at offset `4q` (R42). -/
theorem Memory.loadWord_ofBytes (base q : Nat) (bytes : List Byte) :
    Memory.loadWord (Memory.ofBytes base bytes) (base + 4 * q) = (wordsOf bytes)[q]? := by
  have read (k : Nat) : Memory.read (Memory.ofBytes base bytes) (base + 4 * q + k) = bytes[4 * q + k]? := by
    rw [Memory.read_ofBytes, if_pos (by omega), Nat.add_assoc, Nat.add_sub_cancel_left]
  by_cases inside : 4 * q + 3 < bytes.length
  · have byte (k : Nat) (hk : k ≤ 3) : bytes[4 * q + k]? = some (bytes[4 * q + k]'(by omega)) :=
      List.getElem?_eq_getElem (by omega)
    rw [wordsOf_getElem? (byte 0 (by decide)) (byte 1 (by decide)) (byte 2 (by decide)) (byte 3 (by decide))]
    exact Memory.loadWord_of_reads ((read 0).trans (byte 0 (by decide))) ((read 1).trans (byte 1 (by decide)))
      ((read 2).trans (byte 2 (by decide))) ((read 3).trans (byte 3 (by decide)))
  · rw [Memory.loadWord_of_last_missing ((read 3).trans (List.getElem?_eq_none (by omega))),
      List.getElem?_eq_none (by rw [wordsOf_length]; omega)]

theorem onImageGrid_iff (base a : Word) :
    onImageGrid base a = true ↔ base.toNat ≤ a.toNat ∧ (a.toNat - base.toNat) % 4 = 0 := by
  rw [onImageGrid, Bool.and_eq_true, decide_eq_true_iff, decide_eq_true_iff, BitVec.le_def]

theorem onImageGrid_self (base : Word) : onImageGrid base base = true :=
  (onImageGrid_iff base base).mpr ⟨Nat.le_refl _, by rw [Nat.sub_self]⟩

/-- Settles O37: on the grid both sides are word `(a - base) / 4`, which is none past the end; off it both are none. -/
theorem fetchIsTheDefaultPlatform : Obligations.FetchIsTheDefaultPlatform := by
  intro s base bytes a
  rw [State.fetch, State.load_imageBase, State.load_image, defaultFetch]
  by_cases grid : onImageGrid base a = true
  · obtain ⟨le, aligned⟩ := (onImageGrid_iff base a).mp grid
    have offset : a.toNat = base.toNat + 4 * ((a.toNat - base.toNat) / 4) := by omega
    have word : Memory.loadWord (Memory.ofBytes base.toNat bytes) a.toNat =
        (wordsOf bytes)[(a.toNat - base.toNat) / 4]? :=
      (congrArg _ offset).trans (Memory.loadWord_ofBytes _ _ bytes)
    rw [if_pos grid, word]
    by_cases inside : a.toNat < base.toNat + 4 * (wordsOf bytes).length
    · rw [if_pos ⟨le, inside, aligned⟩]
    · rw [if_neg fun ⟨_, h, _⟩ => inside h, List.getElem?_eq_none (by omega)]
  · rw [if_neg grid, if_neg fun ⟨le, _, aligned⟩ => grid ((onImageGrid_iff base a).mpr ⟨le, aligned⟩)]

/-! ### A placed word -/

theorem Memory.read_storeWord_of_outside {a b : Nat} (outside : b < a ∨ a + 4 ≤ b) (m : Memory) (w : Word) :
    Memory.read (Memory.storeWord m a w) b = Memory.read m b := by
  simp only [Memory.storeWord, Memory.read_write]
  rw [if_neg (by omega), if_neg (by omega), if_neg (by omega), if_neg (by omega)]

theorem Memory.loadWord_storeWord_of_disjoint {a b : Nat} (disjoint : b + 4 ≤ a ∨ a + 4 ≤ b) (m : Memory) (w : Word) :
    Memory.loadWord (Memory.storeWord m a w) b = Memory.loadWord m b := by
  have same (k : Nat) (hk : k ≤ 3) : Memory.read (Memory.storeWord m a w) (b + k) = Memory.read m (b + k) :=
    Memory.read_storeWord_of_outside (by omega) m w
  have first : Memory.read (Memory.storeWord m a w) b = Memory.read m b := same 0 (by decide)
  rw [Memory.loadWord, Memory.loadWord, first, same 1 (by decide), same 2 (by decide), same 3 (by decide)]

/-- The base after a load is one whose grid holds the address. -/
theorem onImageGrid_placeWord (s : State) (a w : Word) : onImageGrid (s.placeWord a w).imageBase a = true := by
  rw [State.placeWord]
  by_cases grid : onImageGrid s.imageBase a = true
  · simp only [grid, if_true]
  · rw [if_neg grid]
    exact onImageGrid_self a

theorem State.fetch_placeWord_same (s : State) (a w : Word) : (s.placeWord a w).fetch a = some w := by
  rw [State.fetch, if_pos (onImageGrid_placeWord s a w), State.placeWord_image, Memory.loadWord_storeWord]

theorem State.placeWord_imageBase_of_onGrid {s : State} {a : Word} (grid : onImageGrid s.imageBase a = true)
    (w : Word) : (s.placeWord a w).imageBase = s.imageBase :=
  if_pos grid

theorem State.placeWord_imageBase_of_offGrid {s : State} {a : Word} (grid : ¬ onImageGrid s.imageBase a = true)
    (w : Word) : (s.placeWord a w).imageBase = a :=
  if_neg grid

/-- Two addresses of one grid are at least four bytes apart. -/
theorem State.fetch_placeWord_other {s : State} {a b : Word} (grid : onImageGrid s.imageBase a = true) (ne : b ≠ a)
    (w : Word) : (s.placeWord a w).fetch b = s.fetch b := by
  rw [State.fetch, State.fetch, State.placeWord_imageBase_of_onGrid grid, State.placeWord_image]
  by_cases gridB : onImageGrid s.imageBase b = true
  · obtain ⟨leA, alignedA⟩ := (onImageGrid_iff _ _).mp grid
    obtain ⟨leB, alignedB⟩ := (onImageGrid_iff _ _).mp gridB
    have apart : b.toNat ≠ a.toNat := mt BitVec.eq_of_toNat_eq ne
    rw [Memory.loadWord_storeWord_of_disjoint (by omega)]
  · rw [if_neg gridB, if_neg gridB]

theorem State.withFetchWord_eq_placeWord (s : State) (w : Nat) :
    s.withFetchWord 32 w = s.placeWord s.pc (BitVec.ofNat 32 w) := by
  have low : BitVec.ofNat 32 (w % 2 ^ 32) = BitVec.ofNat 32 w := BitVec.eq_of_toNat_eq (Nat.mod_mod w (2 ^ 32))
  rw [State.withFetchWord, low]

/-- Settles O38: the image is that of `storeWord`, and the base moves only where pc is off its grid. -/
theorem placedWordIsFetched : Obligations.PlacedWordIsFetched := by
  intro s w
  rw [s.withFetchWord_eq_placeWord w]
  refine ⟨s.fetch_placeWord_same _ _, rfl, rfl, rfl, fun a outside => ?_, ?_⟩
  · exact Memory.read_storeWord_of_outside outside s.image _
  · split
    case isTrue grid =>
      have grid := (onImageGrid_iff s.imageBase s.pc).mpr grid
      exact ⟨State.placeWord_imageBase_of_onGrid grid _, fun a ne => State.fetch_placeWord_other grid ne _⟩
    case isFalse grid =>
      exact State.placeWord_imageBase_of_offGrid (mt (onImageGrid_iff s.imageBase s.pc).mp grid) _

/-! ### The step of each kind of Op -/

/-- A step is the execute step of the decoded word, between stage and commit (R30). -/
theorem step_of_exec {s t : State} {w : Word} (fetched : s.fetch s.pc = some w)
    (run : exec (decode w) s.stage = .next t) : step s = .next t.commit :=
  (step_of_fetch s w fetched).trans (stepWord_of_exec run)

/-- Settles O39: the frame of the Op, with npc kept at the staged value. -/
theorem stepOfOtherOpsAdvancesByFour : Obligations.StepOfOtherOpsAdvancesByFour := by
  intro s w fetched noJump
  obtain ⟨t, run, _, image, npc, others⟩ := exec_frame (decode w) s.stage
  have next : t.npc = s.pc + 4 := (npc noJump).trans s.stage_npc_eq_pc_add_four
  exact ⟨t.commit, step_of_exec fetched run, next, next, image, others⟩

/-- A jump of a step: commit copies the target to pc, and the link is the staged npc. -/
theorem step_of_jump {s : State} {w : Word} {rd : RegIdx} {target : Word} (fetched : s.fetch s.pc = some w)
    (run : exec (decode w) s.stage = .next (s.stage.afterJump rd target s.stage.npc)) :
    ∃ t, step s = .next t ∧ t.pc = target ∧ t.npc = target ∧ RegsAre s t rd (s.pc + 4) ∧ SameImage s t := by
  have npc := s.stage.afterJump_npc rd target s.stage.npc
  exact ⟨_, step_of_exec fetched run, npc, npc, regsAre_commit_of_stage (regsAre_afterJump s.stage rd target _),
    sameImage_afterJump s.stage rd target _⟩

/-- Settles O40: the step of a jump whose target is `pc + imm`. -/
theorem stepOfJalGoesToTarget : Obligations.StepOfJalGoesToTarget := by
  intro s w rd imm fetched decoded
  exact step_of_jump fetched (decoded ▸ exec_jal rd imm s.stage)

/-- Settles O41: the step of a jump whose target is the old `x[rs1] + imm`. -/
theorem stepOfJalrGoesToTarget : Obligations.StepOfJalrGoesToTarget := by
  intro s w rd rs1 imm fetched decoded
  exact step_of_jump fetched (decoded ▸ exec_jalr rd rs1 imm s.stage)

/-- Settles O34: the four bytes are the word FETCH gives, and the decoder on bytes decodes that word. -/
theorem stepRunsDecodedOp : Obligations.StepRunsDecodedOp := by
  intro s b0 b1 b2 b3 i le aligned h0 h1 h2 h3 decoded
  have grid : onImageGrid s.imageBase s.pc = true := (onImageGrid_iff _ _).mpr ⟨le, aligned⟩
  have fetched : s.fetch s.pc = some (wordOfBytes b0 b1 b2 b3) := by
    rw [State.fetch, if_pos grid, Memory.loadWord_of_reads h0 h1 h2 h3]
  have op : decode (wordOfBytes b0 b1 b2 b3) = i := (Prod.ext_iff.mp (Except.ok.inj decoded)).1
  rw [step_of_fetch s _ fetched, stepWord, op]
  rfl

/-- The sequencer overwrites npc before anything reads it. -/
theorem stepWord_setNpc (w : Word) (s : State) (v : Word) : stepWord w (s.setNpc v) = stepWord w s := rfl

/-- Settles O42: FETCH does not read npc, and the stage overwrites it. -/
theorem entryNpcNeverMatters : Obligations.EntryNpcNeverMatters := by
  intro s v
  have same : (s.setNpc v).fetch (s.setNpc v).pc = s.fetch s.pc := rfl
  cases fetched : s.fetch s.pc with
  | none => rw [step_of_no_word s fetched, step_of_no_word _ (same.trans fetched)]
  | some w => rw [step_of_fetch s w fetched, step_of_fetch _ w (same.trans fetched), stepWord_setNpc]

/-! ### Reset and launch -/

/-- Settles O43: the empty image holds no word at RESET_PC. -/
theorem resetLeaves : Obligations.ResetLeaves :=
  ⟨rfl, State.reset.readReg_zero, rfl, rfl, step_of_no_word _ rfl⟩

/-- The first word of a loaded image stands at its base. -/
theorem State.fetch_load_base (s : State) (base : Word) (b0 b1 b2 b3 : Byte) (rest : List Byte) :
    (s.load base (b0 :: b1 :: b2 :: b3 :: rest)).fetch base = some (wordOfBytes b0 b1 b2 b3) :=
  (if_pos (onImageGrid_self base)).trans (Memory.loadWord_ofBytes base.toNat 0 _)

/-- The registers of a launch state are the chosen ones: only the cell of register 0 is replaced. -/
theorem State.launch_readReg (regs : Vector Word 32) (npc : Word) (bytes : List Byte) {r : RegIdx} (hr : r ≠ 0) :
    (State.launch regs npc bytes).readReg r = regs[r.toNat]'r.isLt :=
  (State.setCellZero_readReg { State.reset with npc := npc, x := regs } 0#32 r).trans (if_neg hr)

/-- Settles O44: RESET_PC is IMAGE_BASE, where the default platform holds word 0. -/
theorem launchRunsWordZeroFirst : Obligations.LaunchRunsWordZeroFirst := by
  intro regs npc b0 b1 b2 b3 rest
  exact ⟨rfl, fun r hr => State.launch_readReg regs npc _ hr,
    step_of_fetch _ _ (State.fetch_load_base _ _ b0 b1 b2 b3 rest)⟩

/-- Settles O45: reset and launch put 0 in the cell of register 0, and lay the image out in address order. -/
theorem launchMeetsTheInvariant : Obligations.LaunchMeetsTheInvariant := by
  refine ⟨⟨rfl, State.reset_image_wf⟩, fun regs npc bytes => ⟨?_, Memory.wf_ofBytes _ bytes⟩⟩
  exact Vector.getElem_set_self (by decide)

end Sys2Proof.Machine
end

section
/-! The Formatter: the text of each variant, the number a text of digits spells, and the register names (43_formatter.md
R121 to R128). -/

namespace Sys2Proof.Machine

/-! ### The text of each variant -/

theorem instrText_one (mnemonic a : Text) : instrText mnemonic [a] = mnemonic ++ [' '] ++ a := by
  simp [instrText]

theorem instrText_two (mnemonic a b : Text) : instrText mnemonic [a, b] = mnemonic ++ [' '] ++ a ++ [','] ++ b := by
  simp [instrText]

theorem instrText_three (mnemonic a b d : Text) :
    instrText mnemonic [a, b, d] = mnemonic ++ [' '] ++ a ++ [','] ++ b ++ [','] ++ d := by
  simp [instrText]

/-- Settles O49: each text is the mnemonic, a space, and its operands with commas between them. -/
theorem textsAreAsListed : Obligations.TextsAreAsListed := by
  intro rd rs1 imm
  refine ⟨?_, ?_, ?_, ?_, rfl⟩
  · rw [formatText, instrText_two]
    rfl
  · rw [formatText, instrText_two]
    rfl
  · rw [formatText, instrText_one, instrText_two]
    rfl
  · rw [formatText, instrText_two, instrText_three]
    rfl

/-! ### Decimal numbers -/

theorem decimalText_isDigit {n : Nat} {c : Char} (mem : c ∈ decimalText n) : c.isDigit = true :=
  Nat.isDigit_of_mem_toDigits (by decide) (by decide) mem

/-- On decimal digits `digitValue` is the library's value of a digit, so the library's inverse of `toDigits` applies. -/
theorem numeral_decimalText (n : Nat) : numeral 10 (decimalText n) = n := by
  have digits (m : Nat) (c : Char) (mem : c ∈ decimalText n) :
      10 * m + digitValue c = 10 * m + (c.toNat - '0'.toNat) := by
    obtain ⟨_, nine⟩ := Char.isDigit_iff_toNat.mp (decimalText_isDigit mem)
    have decimal : c.toNat < 58 := Nat.lt_succ_of_le nine
    rw [digitValue, if_pos decimal]
    rfl
  calc numeral 10 (decimalText n)
      = Nat.ofDigitChars 10 (decimalText n) 0 := by
        rw [numeral, Nat.ofDigitChars_eq_foldl, List.foldl_ext _ _ _ digits]
    _ = n := Nat.ofDigitChars_ten_toDigits

theorem decimalText_injective : Function.Injective decimalText :=
  Function.LeftInverse.injective numeral_decimalText

/-- The leading digit is that of the quotient by 10 as long as there is one. -/
theorem decimalText_head?_ne_zero (n : Nat) (pos : n ≠ 0) : (decimalText n).head? ≠ some '0' := by
  induction n using Nat.strongRecOn with
  | ind n ih =>
    rw [decimalText]
    by_cases digit : n < 10
    · rw [Nat.toDigits_of_lt_base digit, List.head?_cons]
      exact fun zero => pos (Nat.digitChar_eq_zero.mp (Option.some.inj zero))
    · rw [Nat.toDigits_of_base_le (by decide) (Nat.le_of_not_lt digit),
        List.head?_append_of_ne_nil _ Nat.toDigits_ne_nil]
      exact ih (n / 10) (by omega) (by omega)

theorem signedText_of_neg {v : Word} (neg : v.toInt < 0) : signedText v = '-' :: decimalText (2 ^ 32 - v.toNat) := by
  have magnitude : v.toInt.natAbs = 2 ^ 32 - v.toNat := by
    rw [BitVec.toInt_eq_toNat_cond] at neg ⊢
    split at neg <;> omega
  rw [signedText, if_pos neg, magnitude]

theorem signedText_of_nonneg {v : Word} (nonneg : 0 ≤ v.toInt) : signedText v = decimalText v.toNat := by
  have magnitude : v.toInt.natAbs = v.toNat := by
    rw [BitVec.toInt_eq_toNat_cond] at nonneg ⊢
    split at nonneg <;> omega
  rw [signedText, if_neg (Int.not_lt.mpr nonneg), magnitude]

/-- Settles O51: the library's facts about `Nat.toDigits`, the sign by cases, and the texts as listed. -/
theorem immediatesPrintInDecimal : Obligations.ImmediatesPrintInDecimal := by
  refine ⟨fun n => ?digits, fun v => ?values, fun rd rs1 imm => ?texts⟩
  case digits =>
    refine ⟨numeral_decimalText n, fun c mem => decimalText_isDigit mem, decimalText_head?_ne_zero n, ?_⟩
    rintro rfl
    rfl
  case values => exact ⟨rfl, signedText_of_neg, signedText_of_nonneg⟩
  case texts =>
    obtain ⟨lui, auipc, jal, jalr, _⟩ := textsAreAsListed rd rs1 imm
    by_cases zero : rd = 0
    · rw [if_pos zero] at jal jalr ⊢
      exact ⟨_, _, "j".toList, _, lui, auipc, jal, jalr⟩
    · rw [if_neg zero] at jal jalr ⊢
      exact ⟨_, _, _, _, lui, auipc, jal, jalr⟩

/-! ### Register names -/

theorem regNameTable_nodup : regNameTable.toList.Nodup := by decide

theorem regText_injective : Function.Injective (regText params) := by
  intro r q same
  have listed (i : RegIdx) : i.toNat < regNameTable.toList.length := by
    rw [Vector.length_toList]
    exact i.isLt
  have names : regNameTable.toList[r.toNat]'(listed r) = regNameTable.toList[q.toNat]'(listed q) :=
    String.toList_injective same
  exact BitVec.eq_of_toNat_eq (regNameTable_nodup.getElem_inj_iff.mp names)

/-- Settles O50: the table is evaluated, and its names are distinct. -/
theorem registerNamesAreDistinct : Obligations.RegisterNamesAreDistinct :=
  ⟨by decide, regText_injective⟩

end Sys2Proof.Machine
end

section
/-! The text of an Op determines the Op, and the output line determines the word: the parts of a text can be read back
(43_formatter.md R121 to R131; 42_unrecognized.md R114). -/

namespace Sys2Proof.Machine

/-! ### Taking a text apart -/

/-- The first separator of a text cuts it in one way. -/
theorem append_separator_injective {sep : Char} {a a' b b' : Text} (ha : sep ∉ a) (ha' : sep ∉ a')
    (same : a ++ sep :: b = a' ++ sep :: b') : a = a' ∧ b = b' := by
  induction a generalizing a' with
  | nil =>
    cases a' with
    | nil => exact ⟨rfl, (List.cons.inj same).2⟩
    | cons c a' => exact absurd (List.mem_cons.mpr (.inl (List.cons.inj same).1)) ha'
  | cons c a ih =>
    cases a' with
    | nil => exact absurd (List.mem_cons.mpr (.inl (List.cons.inj same).1.symm)) ha
    | cons c' a' =>
      obtain ⟨head, tail⟩ := List.cons.inj same
      obtain ⟨hinit, hrest⟩ := ih (List.not_mem_of_not_mem_cons ha) (List.not_mem_of_not_mem_cons ha') tail
      exact ⟨by rw [head, hinit], hrest⟩

/-- A mnemonic with no space and operands with no comma can be read back from the text they form. -/
theorem instrText_injective {m m' : Text} {ops ops' : List Text} (hm : ' ' ∉ m) (hm' : ' ' ∉ m')
    (hops : ∀ t ∈ ops, ',' ∉ t) (hops' : ∀ t ∈ ops', ',' ∉ t) (ne : ops ≠ []) (ne' : ops' ≠ [])
    (same : instrText m ops = instrText m' ops') : m = m' ∧ ops = ops' := by
  obtain ⟨mnemonic, operands⟩ := append_separator_injective hm hm' same
  refine ⟨mnemonic, ?_⟩
  rw [← List.splitOn_intercalate ',' hops ne, operands, List.splitOn_intercalate ',' hops' ne']

/-! ### The parts of an Op's text -/

/-- The mnemonics of R123 to R126, with the short forms for `rd = 0`; the fallback has none. -/
def mnemonicText : Instr → Text
  | .lui _ _ => "lui".toList
  | .auipc _ _ => "auipc".toList
  | .jal rd _ => if rd = 0 then "j".toList else "jal".toList
  | .jalr rd _ _ => if rd = 0 then "jr".toList else "jalr".toList
  | .unrecognized => []

/-- The operands of R123 to R126. -/
def operandTexts : Instr → List Text
  | .lui rd imm => [regText params rd, unsignedText imm]
  | .auipc rd imm => [regText params rd, unsignedText imm]
  | .jal rd imm => if rd = 0 then [signedText imm] else [regText params rd, signedText imm]
  | .jalr rd rs1 imm =>
    if rd = 0 then [regText params rs1, signedText imm] else [regText params rd, regText params rs1, signedText imm]
  | .unrecognized => []

theorem formatText_eq_instrText {i : Instr} (recognised : i ≠ .unrecognized) :
    formatText params i = instrText (mnemonicText i) (operandTexts i) := by
  cases i with
  | lui rd imm => rfl
  | auipc rd imm => rfl
  | jal rd imm => by_cases zero : rd = 0 <;> simp only [formatText, mnemonicText, operandTexts, zero, if_true, if_false]
  | jalr rd rs1 imm =>
    by_cases zero : rd = 0 <;> simp only [formatText, mnemonicText, operandTexts, zero, if_true, if_false]
  | unrecognized => exact absurd rfl recognised

/-- Which variant a mnemonic belongs to. -/
def variantOfMnemonic (m : Text) : Variant :=
  if m = "lui".toList then .lui
  else if m = "auipc".toList then .auipc
  else if m = "j".toList ∨ m = "jal".toList then .jal
  else if m = "jr".toList ∨ m = "jalr".toList then .jalr
  else .unrecognized

theorem variantOfMnemonic_mnemonicText (i : Instr) : variantOfMnemonic (mnemonicText i) = i.variant := by
  cases i with
  | lui rd imm => rfl
  | auipc rd imm => rfl
  | jal rd imm => by_cases zero : rd = 0 <;> simp only [mnemonicText, zero, if_true, if_false] <;> rfl
  | jalr rd rs1 imm => by_cases zero : rd = 0 <;> simp only [mnemonicText, zero, if_true, if_false] <;> rfl
  | unrecognized => rfl

theorem space_not_mem_mnemonicText (i : Instr) : ' ' ∉ mnemonicText i := by
  cases i with
  | lui rd imm | auipc rd imm => rw [mnemonicText]; decide
  | jal rd imm => rw [mnemonicText]; split <;> decide
  | jalr rd rs1 imm => rw [mnemonicText]; split <;> decide
  | unrecognized => decide

theorem comma_not_mem_regText : ∀ r : RegIdx, ',' ∉ regText params r := by decide

theorem comma_not_mem_decimalText (n : Nat) : ',' ∉ decimalText n :=
  fun mem => absurd (decimalText_isDigit mem) (by decide)

theorem comma_not_mem_signedText (v : Word) : ',' ∉ signedText v := by
  rw [signedText]
  split
  · exact List.not_mem_cons_of_ne_of_not_mem (by decide) (comma_not_mem_decimalText _)
  · exact comma_not_mem_decimalText _

theorem comma_not_mem_operandTexts (i : Instr) : ∀ t ∈ operandTexts i, ',' ∉ t := by
  cases i with
  | lui rd imm | auipc rd imm =>
    simp [operandTexts, comma_not_mem_regText, unsignedText, comma_not_mem_decimalText]
  | jal rd imm =>
    rw [operandTexts]
    split <;> simp [comma_not_mem_regText, comma_not_mem_signedText]
  | jalr rd rs1 imm =>
    rw [operandTexts]
    split <;> simp [comma_not_mem_regText, comma_not_mem_signedText]
  | unrecognized => simp [operandTexts]

theorem operandTexts_ne_nil {i : Instr} (recognised : i ≠ .unrecognized) : operandTexts i ≠ [] := by
  cases i with
  | lui rd imm | auipc rd imm => exact List.cons_ne_nil _ _
  | jal rd imm => rw [operandTexts]; split <;> exact List.cons_ne_nil _ _
  | jalr rd rs1 imm => rw [operandTexts]; split <;> exact List.cons_ne_nil _ _
  | unrecognized => exact absurd rfl recognised

/-! ### The operands determine the fields -/

theorem unsignedText_injective : Function.Injective unsignedText :=
  decimalText_injective.comp BitVec.toNat_injective

/-- A sign is no digit, so signs and magnitudes agree. -/
theorem signedText_injective : Function.Injective signedText := by
  intro v u same
  have sign_no_digit (n : Nat) (t : Text) : '-' :: t ≠ decimalText n := fun digits =>
    absurd (decimalText_isDigit (digits ▸ List.mem_cons_self)) (by decide)
  rw [signedText, signedText] at same
  have value : v.toInt = u.toInt := by
    split_ifs at same with negV negU negU
    · have magnitude := decimalText_injective (List.cons.inj same).2
      omega
    · exact absurd same (sign_no_digit _ _)
    · exact absurd same.symm (sign_no_digit _ _)
    · have magnitude := decimalText_injective same
      omega
  exact BitVec.eq_of_toInt_eq value

/-- Within a variant the operands determine the Op; for the jumps their number tells whether `rd = 0`. -/
theorem eq_of_operandTexts_eq {i j : Instr} (variant : i.variant = j.variant)
    (operands : operandTexts i = operandTexts j) : i = j := by
  cases i with
  | lui rd imm =>
    obtain ⟨rd', imm', rfl⟩ := variant_eq_lui_iff.mp variant.symm
    simp only [operandTexts, List.cons.injEq, regText_injective.eq_iff, unsignedText_injective.eq_iff] at operands
    obtain ⟨rfl, rfl, _⟩ := operands
    rfl
  | auipc rd imm =>
    obtain ⟨rd', imm', rfl⟩ := variant_eq_auipc_iff.mp variant.symm
    simp only [operandTexts, List.cons.injEq, regText_injective.eq_iff, unsignedText_injective.eq_iff] at operands
    obtain ⟨rfl, rfl, _⟩ := operands
    rfl
  | jal rd imm =>
    obtain ⟨rd', imm', rfl⟩ := variant_eq_jal_iff.mp variant.symm
    simp only [operandTexts] at operands
    split_ifs at operands <;> simp_all [regText_injective.eq_iff, signedText_injective.eq_iff]
  | jalr rd rs1 imm =>
    obtain ⟨rd', rs1', imm', rfl⟩ := variant_eq_jalr_iff.mp variant.symm
    simp only [operandTexts] at operands
    split_ifs at operands <;> simp_all [regText_injective.eq_iff, signedText_injective.eq_iff]
  | unrecognized => exact (variant_eq_unrecognized_iff.mp variant.symm).symm

/-- The placeholder is the only text without a space (R121, R127). -/
theorem space_mem_formatText_iff (i : Instr) : ' ' ∈ formatText params i ↔ i ≠ .unrecognized := by
  constructor
  · rintro space rfl
    exact absurd space (by decide)
  · intro recognised
    rw [formatText_eq_instrText recognised, instrText]
    exact List.mem_append_right _ List.mem_cons_self

/-- Settles O52: the mnemonic gives the variant, the operands its fields. -/
theorem textDeterminesTheOp : Obligations.TextDeterminesTheOp := by
  intro i j same
  have same : formatText params i = formatText params j := String.ofList_injective same
  have recognised : i ≠ .unrecognized ↔ j ≠ .unrecognized := by
    rw [← space_mem_formatText_iff, ← space_mem_formatText_iff, same]
  by_cases fallback : i = .unrecognized
  · rw [fallback, not_ne_iff.mp (mt recognised.mpr (not_not.mpr fallback))]
  · have fallback' := recognised.mp fallback
    rw [formatText_eq_instrText fallback, formatText_eq_instrText fallback'] at same
    obtain ⟨mnemonic, operands⟩ := instrText_injective (space_not_mem_mnemonicText i) (space_not_mem_mnemonicText j)
      (comma_not_mem_operandTexts i) (comma_not_mem_operandTexts j) (operandTexts_ne_nil fallback)
      (operandTexts_ne_nil fallback') same
    have variant : i.variant = j.variant := by
      rw [← variantOfMnemonic_mnemonicText, ← variantOfMnemonic_mnemonicText, mnemonic]
    exact eq_of_operandTexts_eq variant operands

/-! ### The output line -/

theorem digitValue_digitChar : ∀ d < 16, digitValue (Nat.digitChar d) = d := by decide

theorem digitChar_is_hex : ∀ d < 16, Nat.digitChar d ∈ "0123456789abcdef".toList := by decide

theorem digitValue_hexDigit (w : Word) (k : Nat) : digitValue (hexDigit w k) = w.toNat / 16 ^ k % 16 :=
  digitValue_digitChar _ (Nat.mod_lt _ (by decide))

/-- Eight digits are enough for 32 bits; each digit takes the quotient one place down. -/
theorem numeral_hex8 (w : Word) : numeral 16 (hex8 w) = w.toNat := by
  have top : 16 * 0 + w.toNat / 16 ^ 7 % 16 = w.toNat / 16 ^ 7 := by
    have fits := w.isLt
    omega
  have place (k : Nat) : 16 * (w.toNat / 16 ^ (k + 1)) + w.toNat / 16 ^ k % 16 = w.toNat / 16 ^ k := by
    rw [Nat.pow_succ, ← Nat.div_div_eq_div_mul, Nat.div_add_mod]
  simp only [numeral, hex8, List.map_cons, List.map_nil, List.foldl_cons, List.foldl_nil, digitValue_hexDigit]
  rw [top, place 6, place 5, place 4, place 3, place 2, place 1, place 0, Nat.pow_zero, Nat.div_one]

theorem hex8_injective {w w' : Word} (same : hex8 w = hex8 w') : w = w' :=
  BitVec.eq_of_toNat_eq (by rw [← numeral_hex8, ← numeral_hex8, same])

/-- Settles O53: the parts of the line by definition, and the eight digits as the word in base 16. -/
theorem lineSpellsTheWord : Obligations.LineSpellsTheWord := by
  intro w
  refine ⟨?_, rfl, numeral_hex8 w, fun c mem => ?_⟩
  · rw [line, lineText, List.append_assoc _ [' ']]
    rfl
  · obtain ⟨k, _, rfl⟩ := List.mem_map.mp mem
    exact digitChar_is_hex _ (Nat.mod_lt _ (by decide))

/-- The part of the line after the digits is a function of the Op alone. -/
theorem line_eq_hex8_append (w : Word) :
    line w = String.ofList (hex8 w ++ (' ' :: formatText params (decode w) ++ ['\n'])) := by
  rw [line, lineText, List.append_assoc]

/-- Settles O54: the Op, and so the rest of the line, is the same for all these words; the digits spell the word. -/
theorem unrecognizedLinesDifferInTheWordOnly : Obligations.UnrecognizedLinesDifferInTheWordOnly := by
  refine ⟨⟨' ' :: formatText params .unrecognized ++ ['\n'], fun w decoded => ?_⟩, fun w w' decoded decoded' same => ?_⟩
  · exact ⟨by rw [decoded, format_unrecognized], by rw [line_eq_hex8_append, decoded]⟩
  · rw [line_eq_hex8_append, line_eq_hex8_append, decoded, decoded'] at same
    exact hex8_injective (List.append_cancel_right (String.ofList_injective same))

/-- Settles O55: the lines are those of the words, in order. -/
theorem streamPrintsOneLinePerWord : Obligations.StreamPrintsOneLinePerWord := by
  intro bytes
  refine ⟨by rw [streamLines, List.length_map, wordsOf_length], fun i b0 b1 b2 b3 h0 h1 h2 h3 => ?_⟩
  rw [streamLines, List.getElem?_map, wordsOf_getElem? h0 h1 h2 h3, Option.map_some]

end Sys2Proof.Machine
end
